-- ==== Sys2Proof/Word.lean ====
section
/-! DEFINITION. The word types of the ChipDaddy core and the names of its fields' types
(spec/00_scope.md R6, R9, R10; spec/30_encoding.md R61). Nothing here is signed (R9, R11). -/

namespace Sys2Proof

/-- One byte: a register `V[k]`, a timer, a memory byte (R6). -/
abbrev Byte := BitVec 8

/-- One 16-bit word: an opcode, `PC`, `I`, a stack entry (R6). -/
abbrev Word := BitVec 16

/-- The index of a general register, `V0` to `VF` (spec/10_state.md R20). -/
abbrev Reg := Fin 16

/-- A virtual key code, 0x0 to 0xF (spec/10_state.md R30). -/
abbrev Key := Fin 16

/-- `VF`, the register that is also the flag (spec/10_state.md R21). -/
abbrev vf : Reg := 15

/-- `zext_16` (spec/00_scope.md R11). -/
abbrev zext16 {n : Nat} (b : BitVec n) : Word := b.setWidth 16

end Sys2Proof
end

