-- ==== Sys2Proof/Syntax.lean ====
section
/-! DEFINITION. The instructions: one constructor for each row of spec/opcode_table.json, in the table's
order (spec/30_encoding.md R66), the fallback row last. An argument is a field of R61. The arguments named
`mid` and `ign` are the bits that the row leaves open and the instruction does not use (R67, R74): they are
kept, so that the opcode a fatal error records (`fault_op`, spec/60_exceptions.md R195) is the whole word
(notes/assumptions/13.md). -/

namespace Sys2Proof

/-- An instruction. Each constructor names its opcode pattern and the rule of its meaning. -/
inductive Instr
  /-- 00E0, R160. `mid` = op[11:4], ignored. -/
  | cls (mid : BitVec 8)
  /-- 00EE, R100. `mid` = op[11:4], ignored. -/
  | ret (mid : BitVec 8)
  /-- 1NNN, R101. -/
  | jp (nnn : BitVec 12)
  /-- 2NNN, R102. -/
  | call (nnn : BitVec 12)
  /-- 3XNN, R103. -/
  | seImm (x : Reg) (nn : Byte)
  /-- 4XNN, R104. -/
  | sneImm (x : Reg) (nn : Byte)
  /-- 5XY0, R105. `ign` = op[3:0], ignored. -/
  | seReg (x y : Reg) (ign : BitVec 4)
  /-- 6XNN, R120. -/
  | ldImm (x : Reg) (nn : Byte)
  /-- 7XNN, R121. -/
  | addImm (x : Reg) (nn : Byte)
  /-- 8XY0, R122. -/
  | ldReg (x y : Reg)
  /-- 8XY1, R123. -/
  | or (x y : Reg)
  /-- 8XY2, R124. -/
  | and (x y : Reg)
  /-- 8XY3, R125. -/
  | xor (x y : Reg)
  /-- 8XY4, R126. -/
  | addReg (x y : Reg)
  /-- 8XY5, R127. -/
  | sub (x y : Reg)
  /-- 8XY6, R128. `y` is decoded and not used. -/
  | shr (x y : Reg)
  /-- 8XY7, R129. -/
  | subn (x y : Reg)
  /-- 8XYE, R130. `y` is decoded and not used. -/
  | shl (x y : Reg)
  /-- 9XY0, R106. `ign` = op[3:0], ignored. -/
  | sneReg (x y : Reg) (ign : BitVec 4)
  /-- ANNN, R140. -/
  | ldI (nnn : BitVec 12)
  /-- BNNN, R107. -/
  | jpV0 (nnn : BitVec 12)
  /-- CXNN, R131. -/
  | rnd (x : Reg) (nn : Byte)
  /-- DXYN, R161. -/
  | drw (x y : Reg) (n : BitVec 4)
  /-- EX9E, R170. `ign` = op[7:4], ignored. -/
  | skp (x : Reg) (ign : BitVec 4)
  /-- EXA1, R171. `ign` = op[7:4], ignored. -/
  | sknp (x : Reg) (ign : BitVec 4)
  /-- FX07, R172. -/
  | ldVxDt (x : Reg)
  /-- FX0A, R173. -/
  | ldVxK (x : Reg)
  /-- FX15, R174. -/
  | ldDtVx (x : Reg)
  /-- FX18, R175. -/
  | ldStVx (x : Reg)
  /-- FX1E, R141. -/
  | addIVx (x : Reg)
  /-- FX29, R142. -/
  | ldF (x : Reg)
  /-- FX33, R143. -/
  | ldB (x : Reg)
  /-- FX55, R144. -/
  | ldMemVx (x : Reg)
  /-- FX65, R145. -/
  | ldVxMem (x : Reg)
  /-- Any other word `op`: the diagnostic no-op, R68 and 40_cycle.md R87. -/
  | noHandler (op : Word)
deriving DecidableEq, Repr

end Sys2Proof
end

