-- ==== Sys2Proof/Decode.lean ====
section
/-! DEFINITION. The decoder (spec/30_encoding.md R60 to R74), written from the two-level dispatch of R64, R65
and R71, and after it the encoder, written from the patterns of R66. Decoding reads the opcode only (R72)
and is total on 16-bit words (R70); on bytes it refuses by name what is shorter than one opcode. -/

namespace Sys2Proof

/-! ## The fields of R61 -/

/-- F = op[15:12], the family. -/
def fieldF (op : Word) : BitVec 4 := op.extractLsb' 12 4
/-- X = op[11:8]. -/
def fieldX (op : Word) : Reg := (op.extractLsb' 8 4).toFin
/-- Y = op[7:4]. -/
def fieldY (op : Word) : Reg := (op.extractLsb' 4 4).toFin
/-- The bits of Y where no register is meant (R74). -/
def bitsY (op : Word) : BitVec 4 := op.extractLsb' 4 4
/-- N = op[3:0]. -/
def fieldN (op : Word) : BitVec 4 := op.extractLsb' 0 4
/-- NN = op[7:0]. -/
def fieldNN (op : Word) : Byte := op.extractLsb' 0 8
/-- NNN = op[11:0]. -/
def fieldNNN (op : Word) : BitVec 12 := op.extractLsb' 0 12
/-- op[11:4], the middle byte that family 0 ignores (R67). -/
def fieldMid (op : Word) : BitVec 8 := op.extractLsb' 4 8

/-! ## The second-level dispatch (R65): each case ends in the no-op -/

/-- Family 0: on op[3:0]. -/
def decode0 (op : Word) : Instr :=
  match fieldN op with
  | 0x0#4 => .cls (fieldMid op)
  | 0xE#4 => .ret (fieldMid op)
  | _ => .noHandler op

/-- Family 8: on op[3:0]. -/
def decode8 (op : Word) : Instr :=
  match fieldN op with
  | 0x0#4 => .ldReg (fieldX op) (fieldY op)
  | 0x1#4 => .or (fieldX op) (fieldY op)
  | 0x2#4 => .and (fieldX op) (fieldY op)
  | 0x3#4 => .xor (fieldX op) (fieldY op)
  | 0x4#4 => .addReg (fieldX op) (fieldY op)
  | 0x5#4 => .sub (fieldX op) (fieldY op)
  | 0x6#4 => .shr (fieldX op) (fieldY op)
  | 0x7#4 => .subn (fieldX op) (fieldY op)
  | 0xE#4 => .shl (fieldX op) (fieldY op)
  | _ => .noHandler op

/-- Family E: on op[3:0]. -/
def decodeE (op : Word) : Instr :=
  match fieldN op with
  | 0xE#4 => .skp (fieldX op) (bitsY op)
  | 0x1#4 => .sknp (fieldX op) (bitsY op)
  | _ => .noHandler op

/-- Family F: on op[7:0]. -/
def decodeF (op : Word) : Instr :=
  match fieldNN op with
  | 0x07#8 => .ldVxDt (fieldX op)
  | 0x0A#8 => .ldVxK (fieldX op)
  | 0x15#8 => .ldDtVx (fieldX op)
  | 0x18#8 => .ldStVx (fieldX op)
  | 0x1E#8 => .addIVx (fieldX op)
  | 0x29#8 => .ldF (fieldX op)
  | 0x33#8 => .ldB (fieldX op)
  | 0x55#8 => .ldMemVx (fieldX op)
  | 0x65#8 => .ldVxMem (fieldX op)
  | _ => .noHandler op

/-! ## The first-level dispatch (R64, R71) -/

/-- The instruction of an opcode (R71). The last arm is family 0xF, the one value left. -/
def decode (op : Word) : Instr :=
  match fieldF op with
  | 0x0#4 => decode0 op
  | 0x1#4 => .jp (fieldNNN op)
  | 0x2#4 => .call (fieldNNN op)
  | 0x3#4 => .seImm (fieldX op) (fieldNN op)
  | 0x4#4 => .sneImm (fieldX op) (fieldNN op)
  | 0x5#4 => .seReg (fieldX op) (fieldY op) (fieldN op)
  | 0x6#4 => .ldImm (fieldX op) (fieldNN op)
  | 0x7#4 => .addImm (fieldX op) (fieldNN op)
  | 0x8#4 => decode8 op
  | 0x9#4 => .sneReg (fieldX op) (fieldY op) (fieldN op)
  | 0xA#4 => .ldI (fieldNNN op)
  | 0xB#4 => .jpV0 (fieldNNN op)
  | 0xC#4 => .rnd (fieldX op) (fieldNN op)
  | 0xD#4 => .drw (fieldX op) (fieldY op) (fieldN op)
  | 0xE#4 => decodeE op
  | _ => decodeF op

/-! ## Opcodes in memory: the byte at the lower address is the high one (20_memory.md R44, D1) -/

/-- Two bytes as an opcode, the first byte high. -/
def opcodeOf (hi lo : Byte) : Word := hi ++ lo

/-- op[15:8], the byte at the lower address. -/
def highByte (op : Word) : Byte := op.extractLsb' 8 8

/-- op[7:0], the byte at the higher address. -/
def lowByte (op : Word) : Byte := op.extractLsb' 0 8

/-- The two bytes of an opcode in address order. -/
def opcodeBytes (op : Word) : List Byte := [highByte op, lowByte op]

/-- Why bytes are no instruction. -/
inductive DecodeError
  /-- Fewer bytes than the two of an opcode (R60). Safe: nothing is decoded. -/
  | truncated
deriving DecidableEq, Repr

/-- Decode the first instruction of a list of bytes and give the rest: always exactly 2 bytes (R60). -/
def decodeBytes : List Byte → Except DecodeError (Instr × List Byte)
  | hi :: lo :: rest => .ok (decode (opcodeOf hi lo), rest)
  | [_] => .error .truncated
  | [] => .error .truncated

/-- The instruction the decoder reads from the table word `w` of `nbits` bits, the bits above them 0, laid
out high byte first (R44, R76). -/
def decodeTableWord (nbits w : Nat) : Option Instr :=
  match decodeBytes (opcodeBytes (BitVec.ofNat 16 (w % 2 ^ nbits))) with
  | .ok (i, _) => some i
  | .error _ => none

/-! ## The encoder, from the patterns of R66 -/

/-- A register number as its 4-bit field. -/
def regBits (r : Reg) : BitVec 4 := BitVec.ofFin r

/-- The form F X Y N of R61. -/
def packXYN (f : BitVec 4) (x y : BitVec 4) (n : BitVec 4) : Word := f ++ x ++ y ++ n

/-- The form F X NN of R61. -/
def packXNN (f : BitVec 4) (x : BitVec 4) (nn : Byte) : Word := f ++ x ++ nn

/-- The form F NNN of R61. -/
def packNNN (f : BitVec 4) (nnn : BitVec 12) : Word := f ++ nnn

/-- The form F mid N of family 0 (R67). -/
def packMid (f : BitVec 4) (mid : BitVec 8) (n : BitVec 4) : Word := f ++ mid ++ n

/-- The opcode of a well-formed instruction (R66). -/
def encode : Instr → Word
  | .cls mid => packMid 0x0 mid 0x0
  | .ret mid => packMid 0x0 mid 0xE
  | .jp nnn => packNNN 0x1 nnn
  | .call nnn => packNNN 0x2 nnn
  | .seImm x nn => packXNN 0x3 (regBits x) nn
  | .sneImm x nn => packXNN 0x4 (regBits x) nn
  | .seReg x y ign => packXYN 0x5 (regBits x) (regBits y) ign
  | .ldImm x nn => packXNN 0x6 (regBits x) nn
  | .addImm x nn => packXNN 0x7 (regBits x) nn
  | .ldReg x y => packXYN 0x8 (regBits x) (regBits y) 0x0
  | .or x y => packXYN 0x8 (regBits x) (regBits y) 0x1
  | .and x y => packXYN 0x8 (regBits x) (regBits y) 0x2
  | .xor x y => packXYN 0x8 (regBits x) (regBits y) 0x3
  | .addReg x y => packXYN 0x8 (regBits x) (regBits y) 0x4
  | .sub x y => packXYN 0x8 (regBits x) (regBits y) 0x5
  | .shr x y => packXYN 0x8 (regBits x) (regBits y) 0x6
  | .subn x y => packXYN 0x8 (regBits x) (regBits y) 0x7
  | .shl x y => packXYN 0x8 (regBits x) (regBits y) 0xE
  | .sneReg x y ign => packXYN 0x9 (regBits x) (regBits y) ign
  | .ldI nnn => packNNN 0xA nnn
  | .jpV0 nnn => packNNN 0xB nnn
  | .rnd x nn => packXNN 0xC (regBits x) nn
  | .drw x y n => packXYN 0xD (regBits x) (regBits y) n
  | .skp x ign => packXYN 0xE (regBits x) ign 0xE
  | .sknp x ign => packXYN 0xE (regBits x) ign 0x1
  | .ldVxDt x => packXNN 0xF (regBits x) 0x07
  | .ldVxK x => packXNN 0xF (regBits x) 0x0A
  | .ldDtVx x => packXNN 0xF (regBits x) 0x15
  | .ldStVx x => packXNN 0xF (regBits x) 0x18
  | .addIVx x => packXNN 0xF (regBits x) 0x1E
  | .ldF x => packXNN 0xF (regBits x) 0x29
  | .ldB x => packXNN 0xF (regBits x) 0x33
  | .ldMemVx x => packXNN 0xF (regBits x) 0x55
  | .ldVxMem x => packXNN 0xF (regBits x) 0x65
  | .noHandler op => op

/-- The bytes of an instruction in address order. -/
def encodeBytes (i : Instr) : List Byte := opcodeBytes (encode i)

end Sys2Proof
end

