-- ==== Sys2Proof/Config.lean ====
section
/-! DEFINITION. The implementation parameters (spec/00_scope.md R7), and the two external draws of R8 as free
values: the random byte and a frame's key events. A `Config` is fixed for one session; `State` carries it so that
the step can read it, and no step writes it (notes/assumptions/3.md). -/

namespace Sys2Proof

/-- `PC_OVERFLOW_POLICY` (spec/40_cycle.md R83). -/
inductive PcOverflowPolicy
  /-- Recover: `PC` is set to 0x200 and the fetch goes on. -/
  | reset
  /-- Raise the fatal error PcOutOfRange. -/
  | fatal
deriving DecidableEq, Repr

/-- `VF_WRITE_ORDER` (spec/42_register_alu.md R133). -/
inductive VfWriteOrder
  /-- The order in which the instruction's table row writes `V[X]` and `VF`. -/
  | tableOrder
  /-- `V[X]` first and `VF` last, for all five instructions. -/
  | flagLast
deriving DecidableEq, Repr

/-- A key event of the `key_events` port (spec/40_cycle.md R92). -/
inductive KeyEvent
  /-- `KeyDown(k)`. -/
  | down (k : Key)
  /-- `KeyUp(k)`. -/
  | up (k : Key)
deriving DecidableEq, Repr

/-- One glyph: five bytes, top row first (spec/10_state.md R33). -/
abbrev Glyph := Vector Byte 5

/-- The parameters of R7. The ROM is not among them: it is used once, by `State.construct`
(spec/70_reset_and_hazards.md R223). `fontBase` is below 0x1B0 by its type (R221). -/
structure Config where
  /-- `IPF`, the cycle slots of one frame. -/
  ipf : Nat
  /-- `IPF_MAX`, the bound the host validates `IPF` against; the spec leaves it open (D27). -/
  ipfMax : Nat
  /-- `FONT_BASE`. -/
  fontBase : Fin 0x1B0
  /-- `FONT_DATA`: 16 glyphs of 5 bytes, 80 bytes in all. -/
  font : Vector Glyph 16
  /-- `PC_OVERFLOW_POLICY`. -/
  pcPolicy : PcOverflowPolicy
  /-- `VF_WRITE_ORDER`. -/
  vfOrder : VfWriteOrder
deriving DecidableEq, Repr

namespace Config

/-- The `IPF` check made before a core is constructed (spec/70_reset_and_hazards.md R221). The check of
`FONT_BASE` is in the field's type. -/
def valid (cfg : Config) : Bool := 1 ≤ cfg.ipf && cfg.ipf ≤ cfg.ipfMax

/-- The glyphs of spec/10_state.md R33, the default of `FONT_DATA` (D16: from general knowledge, not in
the source; notes/assumptions/8.md, PRESUMED). -/
def standardFont : Vector Glyph 16 := #v[
  #v[0xF0, 0x90, 0x90, 0x90, 0xF0],
  #v[0x20, 0x60, 0x20, 0x20, 0x70],
  #v[0xF0, 0x10, 0xF0, 0x80, 0xF0],
  #v[0xF0, 0x10, 0xF0, 0x10, 0xF0],
  #v[0x90, 0x90, 0xF0, 0x10, 0x10],
  #v[0xF0, 0x80, 0xF0, 0x10, 0xF0],
  #v[0xF0, 0x80, 0xF0, 0x90, 0xF0],
  #v[0xF0, 0x10, 0x20, 0x40, 0x40],
  #v[0xF0, 0x90, 0xF0, 0x90, 0xF0],
  #v[0xF0, 0x90, 0xF0, 0x10, 0xF0],
  #v[0xF0, 0x90, 0xF0, 0x90, 0x90],
  #v[0xE0, 0x90, 0xE0, 0x90, 0xE0],
  #v[0xF0, 0x80, 0x80, 0x80, 0xF0],
  #v[0xE0, 0x90, 0x90, 0x90, 0xE0],
  #v[0xF0, 0x80, 0xF0, 0x80, 0xF0],
  #v[0xF0, 0x80, 0xF0, 0x80, 0x80]]

/-- The defaults of R7. `IPF` has none there and `IPF_MAX` only an example: both are 20, DESIGN CHOICE
(notes/assumptions/3.md). -/
def default : Config where
  ipf := 20
  ipfMax := 20
  fontBase := 0x050
  font := standardFont
  pcPolicy := .reset
  vfOrder := .tableOrder

/-- FREE VALUE: the byte of the random source that the `n`-th draw takes when the `rnd` port's bytes are
used up. Any value in 0..255, under no law (spec/00_scope.md R8, spec/10_state.md R34, U8;
notes/assumptions/5.md). It has no body. -/
opaque rnd (n : Nat) : Byte

/-- FREE VALUE: the list of key events of the session's frame `n`, where the `key_events` port holds no list for
it. Any list of events on codes 0 to 15, under no law (spec/00_scope.md R8, spec/60_exceptions.md R206;
notes/assumptions/4.md). It has no body. -/
opaque keyEvents (n : Nat) : List KeyEvent

end Config

end Sys2Proof
end

