-- ==== Sys2Proof/Machine/State.lean ====
section
/-! DEFINITION. The state of the core (spec/10_state.md R20 to R39), its ports as data
(spec/60_exceptions.md R205), the two reasons to stop that the host's interface asks for, and the state after
construction with an empty ROM (R38). -/

namespace Sys2Proof.Machine

/-- `MEM` as the cells that differ from the memory's contents before any ROM byte or store
(`Memory.initial`), at strictly rising addresses: equal memories are equal lists (spec/20_memory.md R40). -/
abbrev Memory := List Host.Cell

/-- `DISP[y][x]`: 32 rows of 64 one-bit pixels (spec/10_state.md R29). -/
abbrev Display := Vector (Vector Bool 64) 32

/-- The causes of a fatal error (spec/60_exceptions.md R190). -/
inductive FatalCause
  /-- 2NNN with `SP = 16` (R191). -/
  | stackOverflow
  /-- 00EE with `SP = 0` (R192). -/
  | stackUnderflow
  /-- FX33, FX55, FX65 or DXYN past 0xFFF (R193). -/
  | memoryBound
  /-- The fetch, `PC > 0xFFE`, under the policy FATAL (R194). -/
  | pcOutOfRange
deriving DecidableEq, Repr

/-- The fault record that `HALT` holds (spec/10_state.md R32). -/
structure FaultRecord where
  /-- `cause`. -/
  cause : FatalCause
  /-- `fault_pc`, the address of the faulting opcode. -/
  faultPc : Word
  /-- `fault_op`, the opcode; none for a PC-overflow fault. -/
  faultOp : Option Word
deriving DecidableEq, Repr

/-- An event of the `diag` port (spec/60_exceptions.md R197). -/
inductive Diag
  /-- UnknownOpcode: the address and the opcode. -/
  | unknownOpcode (addr op : Word)
  /-- PcReset: the `PC` that ran past memory. -/
  | pcReset (pc : Word)
deriving DecidableEq, Repr

/-- What the `display` and `tone` ports present at the end of a frame (spec/40_cycle.md R96). -/
structure FrameOut where
  /-- The `display` port: `DISP`. -/
  display : Display
  /-- The `tone` port: `ST > 0`, after the frame's decrement. -/
  tone : Bool
deriving DecidableEq, Repr

/-- The piece of the frame that the next step is (spec/40_cycle.md R91; the model's own,
notes/assumptions/1.md). -/
inductive Phase
  /-- The input phase: a frame is about to begin. -/
  | input
  /-- The cycle phase with `left` slots to run; with none left, the timer and output phases. -/
  | slots (left : Nat)
deriving DecidableEq, Repr

/-- The machine. The first twelve fields are the state of spec/10_state.md R38; `cfg` is the configuration
(R37); the next four are the ports of spec/60_exceptions.md R205; the last three are the model's own. -/
structure State where
  /-- `V[0]` to `V[15]`; `V[15]` is `VF` (R20, R21). -/
  v : Vector Byte 16
  /-- `I` (R23). -/
  i : Word
  /-- `PC` (R24). -/
  pc : Word
  /-- `SP`, the entries in use: 0 to 16 (R26). -/
  sp : Fin 17
  /-- `STACK[0..15]` (R26). -/
  stack : Vector Word 16
  /-- `DT` (R28). -/
  dt : Byte
  /-- `ST` (R28). -/
  st : Byte
  /-- `DISP` (R29). -/
  disp : Display
  /-- `KEYS`: `keys[k]` says whether key `k` is held down (R30). -/
  keys : Vector Bool 16
  /-- `WAIT`: none is RUNNING, `some r` is WAITING(r) (R31). -/
  wait : Option Reg
  /-- `HALT` (R32); also the `fault` port. -/
  halt : Option FaultRecord
  /-- `MEM` (spec/20_memory.md R40). -/
  mem : Memory
  /-- The session's configuration, never written by a step (R37). -/
  cfg : Config
  /-- The `key_events` port: the lists the collaborator has delivered for the frames to come, next frame first
  (R206). The list of a frame past them is free: `Config.keyEvents`. -/
  keyIn : List (List KeyEvent)
  /-- The `rnd` port: the bytes delivered and not yet drawn (R34). -/
  rndIn : List Byte
  /-- The `display` and `tone` ports: what the last completed frame presented (R207, R208). -/
  shown : Option FrameOut
  /-- The `diag` port: the events so far, oldest first (R197). -/
  diags : List Diag
  /-- The model's own: the piece of the frame that the next step is. -/
  phase : Phase
  /-- The model's own: how many bytes CXNN has drawn, the index of the free draw `Config.rnd`. -/
  draws : Nat
  /-- The model's own: how many frames have begun, the index of the free list `Config.keyEvents`. -/
  frames : Nat
deriving DecidableEq, Repr

/-- The faults of the host's interface. A FATAL ERROR OF THE SPEC IS NOT ONE: it is a next state with `halt`
set (R195; notes/assumptions/9.md). -/
inductive Fault
  /-- Raised by `memRead`, `memReadWord` and `memWrite` for an address outside 0x000 to 0xFFF. Safe: the
  spec says such a call "never happens in a conforming model" (spec/00_scope.md R13), every meaning checks
  the bound first, and no step raises it. -/
  | addressOutsideMemory (addr : Nat)
deriving DecidableEq, Repr

/-- The refusals of the host's interface. -/
inductive Refusal
  /-- Raised by an arm of `exec` for an instruction without a meaning. Safe: nothing runs. No arm raises it:
  every instruction has its meaning. -/
  | notModelled (mnemonic : String)
deriving DecidableEq, Repr

/-- What a meaning answers. -/
abbrev Result := Host.Outcome State Fault Refusal

/-- `ROM_BASE`, the ROM load address and the entry point (spec/00_scope.md R6, 70_reset_and_hazards.md
R224). -/
abbrev romBase : Word := 0x200

/-- The machine after construction (spec/10_state.md R38, 70_reset_and_hazards.md R220) with the default
configuration and the ROM of 0 bytes, which is legal (R223). The font is what unlisted memory reads as; no
input has been delivered and no frame has begun (notes/assumptions/1.md, 3.md, 4.md, 5.md, 7.md). -/
def State.reset : State where
  v := Vector.replicate 16 0
  i := 0
  pc := romBase
  sp := 0
  stack := Vector.replicate 16 0
  dt := 0
  st := 0
  disp := Vector.replicate 32 (Vector.replicate 64 false)
  keys := Vector.replicate 16 false
  wait := none
  halt := none
  mem := []
  cfg := Config.default
  keyIn := []
  rndIn := []
  shown := none
  diags := []
  phase := .input
  draws := 0
  frames := 0

end Sys2Proof.Machine
end

