-- ==== Sys2Proof/Machine/Ops.lean ====
section
/-! DEFINITION. The operations the meanings share: memory (spec/20_memory.md), registers, the stack
(spec/10_state.md R26), the fatal error (spec/60_exceptions.md R195), the diagnostic port (R197), the random
port (spec/10_state.md R34). -/

namespace Sys2Proof.Machine

/-- Go on with the value of an operation that answered, or stop as it stopped. -/
def thenDo {α β : Type} (r : Host.Outcome α Fault Refusal)
    (f : α → Host.Outcome β Fault Refusal) : Host.Outcome β Fault Refusal :=
  match r with
  | .next x => f x
  | .fault e => .fault e
  | .refused e => .refused e

/-! ## Memory -/

/-- Byte `k` of `FONT_DATA`: glyph `k / 5`, row `k % 5` (spec/10_state.md R33). -/
def fontByte (cfg : Config) (k : Nat) : Byte :=
  if h : k < 80 then cfg.font[k / 5][k % 5] else 0

/-- What an unlisted address reads as: memory at construction before the ROM is copied in, the font at
`FONT_BASE` and 0x00 elsewhere (spec/20_memory.md R58; the zero bytes are the spec's decision D17,
notes/assumptions/6.md). -/
def Memory.initial (cfg : Config) (a : Nat) : Byte :=
  if cfg.fontBase.val ≤ a ∧ a < cfg.fontBase.val + 80 then fontByte cfg (a - cfg.fontBase.val) else 0

/-- `MEM[a]`. -/
def Memory.read (cfg : Config) (m : Memory) (a : Nat) : Byte :=
  match m with
  | [] => Memory.initial cfg a
  | (b, w) :: rest => if a = b then w else Memory.read cfg rest a

/-- `MEM[a] <- w`, in the canonical form: rising addresses, no cell equal to what an unlisted address reads
as. -/
def Memory.write (cfg : Config) (m : Memory) (a : Nat) (w : Byte) : Memory :=
  match m with
  | [] => if w = Memory.initial cfg a then [] else [(a, w)]
  | (b, u) :: rest =>
    if a < b then
      if w = Memory.initial cfg a then (b, u) :: rest else (a, w) :: (b, u) :: rest
    else if a = b then
      if w = Memory.initial cfg a then rest else (a, w) :: rest
    else (b, u) :: Memory.write cfg rest a w

/-- Write consecutive bytes, the first at `a`. -/
def Memory.writeAll (cfg : Config) (m : Memory) (a : Nat) (bytes : List Byte) : Memory :=
  match bytes with
  | [] => m
  | b :: rest => Memory.writeAll cfg (Memory.write cfg m a b) (a + 1) rest

/-- The canonical form of `Memory`; every listed address is below `MEM_SIZE` (spec/00_scope.md R6). -/
abbrev Memory.wf (cfg : Config) (m : Memory) : Prop :=
  m.Pairwise (fun c d => c.1 < d.1) ∧ ∀ c ∈ m, c.1 < 0x1000 ∧ c.2 ≠ Memory.initial cfg c.1

/-- The byte of memory at `a`: the model's read of one byte. -/
def State.readByte (s : State) (a : Nat) : Byte := Memory.read s.cfg s.mem a

/-- Whether the `n` bytes from `a` are bytes of memory: `a + n - 1 <= 0xFFF` (spec/00_scope.md R13). No byte
is always there. -/
def inMemory (a n : Nat) : Bool := n = 0 || a + n - 1 ≤ 0xFFF

/-- `MemRead(a, 1)` for each of the `n` addresses from `a` (R13, spec/20_memory.md R45). -/
def memRead (s : State) (a n : Nat) : Host.Outcome (List Byte) Fault Refusal :=
  if inMemory a n then .next ((List.range n).map fun k => s.readByte (a + k))
  else .fault (.addressOutsideMemory (a + n - 1))

/-- `MemRead(a, 2)`: the byte at the lower address is the high one (R13, spec/20_memory.md R44). -/
def memReadWord (s : State) (a : Nat) : Host.Outcome Word Fault Refusal :=
  if inMemory a 2 then .next (opcodeOf (s.readByte a) (s.readByte (a + 1)))
  else .fault (.addressOutsideMemory (a + 1))

/-- `MemWrite(a + k, 1, bytes[k])` for each byte in order (R13). -/
def memWrite (s : State) (a : Nat) (bytes : List Byte) : Result :=
  if inMemory a bytes.length then .next { s with mem := Memory.writeAll s.cfg s.mem a bytes }
  else .fault (.addressOutsideMemory (a + bytes.length - 1))

/-! ## Registers -/

/-- `V[x]` (spec/00_scope.md R12). -/
def State.reg (s : State) (x : Reg) : Byte := s.v[x]

/-- `V[x] <- b` (spec/00_scope.md R12). -/
def State.setReg (s : State) (x : Reg) (b : Byte) : State := { s with v := s.v.set x b }

/-- `V[k], V[k+1], ...` from a list of bytes, for FX65 (spec/43_index_memory.md R145). A byte past `V[15]`
has no register. -/
def State.setRegs (s : State) (k : Nat) (bytes : List Byte) : State :=
  match bytes with
  | [] => s
  | b :: rest => (if h : k < 16 then s.setReg ⟨k, h⟩ b else s).setRegs (k + 1) rest

/-- `V[0]` to `V[x]` in order, for FX55 (spec/43_index_memory.md R144). -/
def State.regsTo (s : State) (x : Reg) : List Byte := s.v.toList.take (x.val + 1)

/-! ## The stack (spec/10_state.md R26) -/

/-- `STACK[SP] <- w; SP <- SP + 1`; none when the stack is full. -/
def State.push (s : State) (w : Word) : Option State :=
  if h : s.sp.val < 16 then
    some { s with stack := s.stack.set s.sp.val w, sp := ⟨s.sp.val + 1, by omega⟩ }
  else none

/-- `SP <- SP - 1`, then the value of `STACK[SP]`, which stays there (R100); none when the stack is empty. -/
def State.pop (s : State) : Option (Word × State) :=
  match s.sp with
  | ⟨0, _⟩ => none
  | ⟨n + 1, h⟩ => some (s.stack[n], { s with sp := ⟨n, by omega⟩ })

/-! ## The fatal error (spec/60_exceptions.md R195). There is no return from it (R196, R201). -/

/-- The codes of R190. -/
def FatalCause.code : FatalCause → Nat
  | .stackOverflow => 1
  | .stackUnderflow => 2
  | .memoryBound => 3
  | .pcOutOfRange => 4

/-- `HALT <- (cause, a, op)` and `PC` back at the faulting address `a`: nothing else changes (R195). -/
def State.takeFatal (s : State) (cause : FatalCause) (a : Word) (op : Option Word) : State :=
  { s with pc := a, halt := some ⟨cause, a, op⟩ }

/-- `raise Fatal(cause, (a, op))` from inside the instruction `ins`, where `PC = a + 2` (spec/00_scope.md R14,
R16). -/
def raiseFatal (cause : FatalCause) (ins : Instr) (s : State) : Result :=
  .next (s.takeFatal cause (s.pc - 2) (some (encode ins)))

/-! ## The diagnostic port (spec/60_exceptions.md R197) -/

/-- The codes of R197 (D24). -/
def Diag.code : Diag → Nat
  | .unknownOpcode _ _ => 0x10
  | .pcReset _ => 0x11

/-- `emit Diag(...)`. -/
def State.emit (s : State) (d : Diag) : State := { s with diags := s.diags ++ [d] }

/-! ## The random port (spec/10_state.md R34) -/

/-- The byte the next CXNN draws: the next one the port has delivered, else the free draw (R8;
notes/assumptions/5.md). -/
def State.nextDraw (s : State) : Byte := s.rndIn.headD (Config.rnd s.draws)

/-- The state after one draw is consumed. -/
def State.afterDraw (s : State) : State := { s with rndIn := s.rndIn.tail, draws := s.draws + 1 }

end Sys2Proof.Machine
end

