-- ==== Sys2Proof/Machine/Flags.lean ====
section
/-! DEFINITION. The flag computations and the write order of register and flag (spec/10_state.md R21,
spec/42_register_alu.md R126 to R133). `VF` is the only flag; it is written 0 or 1. -/

namespace Sys2Proof.Machine

/-- A flag as the byte `VF` receives. -/
def flagByte (b : Bool) : Byte := if b then 1 else 0

/-- 8XY4: `x0 + y0 > 255`, with no wrap (R126). -/
def carryOf (x0 y0 : Byte) : Bool := x0.toNat + y0.toNat > 255

/-- 8XY5 and 8XY7: strictly greater; equal operands give 0 (R127, R129). -/
def greaterOf (x0 y0 : Byte) : Bool := x0.toNat > y0.toNat

/-- 8XY6: bit 0, the bit shifted out (R128). -/
def lowBitOf (x0 : Byte) : Bool := x0.getLsbD 0

/-- 8XYE: bit 7, the bit shifted out (R130). -/
def highBitOf (x0 : Byte) : Bool := x0.getLsbD 7

/-- The order in which a row of the source's table writes `V[X]` and `VF` (R133). -/
inductive RowOrder
  /-- 8XY4: `V[X]`, then `VF`. -/
  | regThenFlag
  /-- 8XY5, 8XY6, 8XY7, 8XYE: `VF`, then `V[X]`. -/
  | flagThenReg
deriving DecidableEq, Repr

/-- Write the result to `V[X]` and the flag to `VF` in the order that `VF_WRITE_ORDER` says (R133). The order
matters only when `X = 0xF`: the later write decides `VF`. -/
def State.setRegAndFlag (s : State) (order : RowOrder) (x : Reg) (result : Byte) (flag : Bool) : State :=
  match s.cfg.vfOrder, order with
  | .tableOrder, .flagThenReg => (s.setReg vf (flagByte flag)).setReg x result
  | .tableOrder, .regThenFlag => (s.setReg x result).setReg vf (flagByte flag)
  | .flagLast, .flagThenReg => (s.setReg x result).setReg vf (flagByte flag)
  | .flagLast, .regThenFlag => (s.setReg x result).setReg vf (flagByte flag)

end Sys2Proof.Machine
end

