-- ==== Sys2Proof/Machine/Alu.lean ====
section
/-! DEFINITION. The register loads, arithmetic and logic, and the random byte (spec/42_register_alu.md R120 to
R133). All operands are read at the start of the instruction (R133, D9). -/

namespace Sys2Proof.Machine

/-- 6XNN (R120). -/
def execLdImm (x : Reg) (nn : Byte) (s : State) : Result := .next (s.setReg x nn)

/-- 7XNN (R121): the carry is lost and `VF` is not touched. -/
def execAddImm (x : Reg) (nn : Byte) (s : State) : Result := .next (s.setReg x (s.reg x + nn))

/-- 8XY0 (R122). -/
def execLdReg (x y : Reg) (s : State) : Result := .next (s.setReg x (s.reg y))

/-- 8XY1 (R123): `VF` is not reset. -/
def execOr (x y : Reg) (s : State) : Result := .next (s.setReg x (s.reg x ||| s.reg y))

/-- 8XY2 (R124). -/
def execAnd (x y : Reg) (s : State) : Result := .next (s.setReg x (s.reg x &&& s.reg y))

/-- 8XY3 (R125). -/
def execXor (x y : Reg) (s : State) : Result := .next (s.setReg x (s.reg x ^^^ s.reg y))

/-- 8XY4 (R126). -/
def execAddReg (x y : Reg) (s : State) : Result :=
  .next (s.setRegAndFlag .regThenFlag x (s.reg x + s.reg y) (carryOf (s.reg x) (s.reg y)))

/-- 8XY5 (R127). -/
def execSub (x y : Reg) (s : State) : Result :=
  .next (s.setRegAndFlag .flagThenReg x (s.reg x - s.reg y) (greaterOf (s.reg x) (s.reg y)))

/-- 8XY6 (R128): `Vy` is not read. -/
def execShr (x _y : Reg) (s : State) : Result :=
  .next (s.setRegAndFlag .flagThenReg x (s.reg x >>> 1) (lowBitOf (s.reg x)))

/-- 8XY7 (R129). -/
def execSubn (x y : Reg) (s : State) : Result :=
  .next (s.setRegAndFlag .flagThenReg x (s.reg y - s.reg x) (greaterOf (s.reg y) (s.reg x)))

/-- 8XYE (R130): `Vy` is not read. -/
def execShl (x _y : Reg) (s : State) : Result :=
  .next (s.setRegAndFlag .flagThenReg x (s.reg x <<< 1) (highBitOf (s.reg x)))

/-- CXNN (R131): one draw of the random source under a mask; a draw is consumed whatever the mask is. -/
def execRnd (x : Reg) (nn : Byte) (s : State) : Result :=
  .next (s.afterDraw.setReg x (s.nextDraw &&& nn))

end Sys2Proof.Machine
end

