-- ==== Sys2Proof/Machine/Operands.lean ====
section
/-! DEFINITION. The operand forms: the base and offset address with its bound check (spec/43_index_memory.md
R146, spec/20_memory.md R47), the skip (spec/41_control_flow.md R108), the key operand, the glyph address,
the BCD digits, the pixel coordinates. -/

namespace Sys2Proof.Machine

/-- The effective address `I + k`, in integers and never wrapped (R146). -/
def State.effAddr (s : State) (k : Nat) : Nat := s.i.toNat + k

/-- The check of R47 for an access to `I` up to `I + last`: `I + last <= 0xFFF`, in integers without wrap. -/
def State.rangeOk (s : State) (last : Nat) : Bool := s.effAddr last ≤ 0xFFF

/-- Go on when `I` to `I + last` are in memory, else the instruction `ins` raises MemoryBound before any byte
is touched (R47, spec/60_exceptions.md R193). -/
def checkRange (s : State) (last : Nat) (ins : Instr) (go : Result) : Result :=
  if s.rangeOk last then go else raiseFatal .memoryBound ins s

/-- `if c: PC <- PC + 2`, on top of the advance (R108). -/
def State.skipIf (s : State) (c : Bool) : State := if c then { s with pc := s.pc + 2 } else s

/-- Whether `Vx` names a key that is held down. `KEYS` holds only codes 0 to 15, so a greater value is never
in it (spec/45_keys_timers.md R170, D13). -/
def State.keyHeld (s : State) (code : Byte) : Bool :=
  if h : code.toNat < 16 then s.keys[code.toNat] else false

/-- `FONT_BASE + 5 * Vx`, with no mask on `Vx` (spec/43_index_memory.md R142, D12). -/
def glyphAddr (cfg : Config) (x0 : Byte) : Word := BitVec.ofNat 16 (cfg.fontBase.val + 5 * x0.toNat)

/-- The hundreds, tens and ones of a byte (spec/43_index_memory.md R143). -/
def bcdDigits (x0 : Byte) : List Byte :=
  [BitVec.ofNat 8 (x0.toNat / 100), BitVec.ofNat 8 (x0.toNat / 10 % 10), BitVec.ofNat 8 (x0.toNat % 10)]

/-- `(x0 + c) mod 64`, the column of a sprite's bit `c` (spec/44_display.md R161). -/
def spriteColumn (x0 : Byte) (c : Nat) : Fin 64 := Fin.ofNat 64 (x0.toNat + c)

/-- `(y0 + r) mod 32`, the row of a sprite's byte `r` (spec/44_display.md R161). -/
def spriteRow (y0 : Byte) (r : Nat) : Fin 32 := Fin.ofNat 32 (y0.toNat + r)

/-- `b[7 - c]`: bit 7 is the leftmost pixel (spec/44_display.md R162, D14). -/
def spriteBit (b : Byte) (c : Nat) : Bool := b.getLsbD (7 - c)

end Sys2Proof.Machine
end

