-- ==== Sys2Proof/Machine/Control.lean ====
section
/-! DEFINITION. The jumps, the call and return, the conditional skips (spec/41_control_flow.md R100 to R110)
and the diagnostic no-op (spec/40_cycle.md R87). On entry `PC = a + 2` (R85). -/

namespace Sys2Proof.Machine

/-- 00EE (R100): StackUnderflow when `SP = 0`, else pop into `PC`. -/
def execRet (mid : BitVec 8) (s : State) : Result :=
  match s.pop with
  | none => raiseFatal .stackUnderflow (.ret mid) s
  | some (target, t) => .next { t with pc := target }

/-- 1NNN (R101). -/
def execJp (nnn : BitVec 12) (s : State) : Result := .next { s with pc := zext16 nnn }

/-- 2NNN (R102): StackOverflow when `SP = 16`, else push `a + 2` and jump. -/
def execCall (nnn : BitVec 12) (s : State) : Result :=
  match s.push s.pc with
  | none => raiseFatal .stackOverflow (.call nnn) s
  | some t => .next { t with pc := zext16 nnn }

/-- 3XNN (R103). -/
def execSeImm (x : Reg) (nn : Byte) (s : State) : Result := .next (s.skipIf (s.reg x = nn))

/-- 4XNN (R104). -/
def execSneImm (x : Reg) (nn : Byte) (s : State) : Result := .next (s.skipIf (s.reg x ≠ nn))

/-- 5XY0 (R105); op[3:0] is ignored. -/
def execSeReg (x y : Reg) (_ign : BitVec 4) (s : State) : Result := .next (s.skipIf (s.reg x = s.reg y))

/-- 9XY0 (R106); op[3:0] is ignored. -/
def execSneReg (x y : Reg) (_ign : BitVec 4) (s : State) : Result := .next (s.skipIf (s.reg x ≠ s.reg y))

/-- BNNN (R107): the register is `V0`, whatever op[11:8] is; the sum fits 16 bits. -/
def execJpV0 (nnn : BitVec 12) (s : State) : Result :=
  .next { s with pc := zext16 nnn + zext16 (s.reg 0) }

/-- The diagnostic no-op (spec/40_cycle.md R87): one UnknownOpcode event with the address `a = PC - 2` and
the opcode, nothing else. -/
def execNoHandler (op : Word) (s : State) : Result := .next (s.emit (.unknownOpcode (s.pc - 2) op))

end Sys2Proof.Machine
end

