-- ==== Sys2Proof/Machine/Display.lean ====
section
/-! DEFINITION. The two instructions that write the display (spec/44_display.md R160 to R164). The drawing loop
is R161's, a row and a column at a time. -/

namespace Sys2Proof.Machine

/-- The display with every pixel 0. -/
def Display.blank : Display := Vector.replicate 32 (Vector.replicate 64 false)

/-- `DISP[y][x]`. -/
def Display.pixel (d : Display) (y : Fin 32) (x : Fin 64) : Bool := d[y][x]

/-- `DISP[y][x] <- DISP[y][x] ^ 1`. -/
def Display.flip (d : Display) (y : Fin 32) (x : Fin 64) : Display := d.set y (d[y].set x (!d[y][x]))

/-- What R161's loop carries: the display and `hit`. -/
structure Canvas where
  /-- `DISP`. -/
  disp : Display
  /-- `hit`: a set pixel has been cleared. -/
  hit : Bool
deriving DecidableEq, Repr

/-- The body of R161's inner loop: a 1 bit flips its pixel and collides with a set one, a 0 bit does nothing. -/
def drawBit (x0 y0 : Byte) (r : Nat) (b : Byte) (p : Canvas) (c : Nat) : Canvas :=
  if spriteBit b c then
    { disp := p.disp.flip (spriteRow y0 r) (spriteColumn x0 c),
      hit := p.hit || p.disp.pixel (spriteRow y0 r) (spriteColumn x0 c) }
  else p

/-- R161's inner loop: the 8 bits of sprite byte `r`, leftmost first. -/
def drawByte (x0 y0 : Byte) (r : Nat) (b : Byte) (p : Canvas) : Canvas :=
  (List.range 8).foldl (drawBit x0 y0 r b) p

/-- R161's outer loop: the sprite's bytes from byte `r` on. -/
def drawBytes (x0 y0 : Byte) (r : Nat) (bytes : List Byte) (p : Canvas) : Canvas :=
  match bytes with
  | [] => p
  | b :: rest => drawBytes x0 y0 (r + 1) rest (drawByte x0 y0 r b p)

/-- 00E0 (R160): `VF` is not changed; op[11:4] is ignored. -/
def execCls (_mid : BitVec 8) (s : State) : Result := .next { s with disp := Display.blank }

/-- The draw of DXYN once the sprite's bytes are read; `VF` is the last write (R161). -/
def State.draw (s : State) (x y : Reg) (bytes : List Byte) : State :=
  let p := drawBytes (s.reg x) (s.reg y) 0 bytes ⟨s.disp, false⟩
  { s with disp := p.disp }.setReg vf (flagByte p.hit)

/-- DXYN (R161): with `N = 0` no access, no check, no pixel, and `VF` is 0 (D15). -/
def execDrw (x y : Reg) (n : BitVec 4) (s : State) : Result :=
  let go := thenDo (memRead s (s.effAddr 0) n.toNat) fun bytes => .next (s.draw x y bytes)
  if n = 0 then go else checkRange s (n.toNat - 1) (.drw x y n) go

end Sys2Proof.Machine
end

