-- ==== Sys2Proof/Machine/IndexMemory.lean ====
section
/-! DEFINITION. The index register and the memory transfers (spec/43_index_memory.md R140 to R146). A transfer
checks its whole range before it touches a byte, and leaves `I` unchanged (D10). -/

namespace Sys2Proof.Machine

/-- ANNN (R140). -/
def execLdI (nnn : BitVec 12) (s : State) : Result := .next { s with i := zext16 nnn }

/-- FX1E (R141): 16-bit wrap, `VF` not written (D11). -/
def execAddIVx (x : Reg) (s : State) : Result := .next { s with i := s.i + zext16 (s.reg x) }

/-- FX29 (R142). -/
def execLdF (x : Reg) (s : State) : Result := .next { s with i := glyphAddr s.cfg (s.reg x) }

/-- FX33 (R143). -/
def execLdB (x : Reg) (s : State) : Result :=
  checkRange s 2 (.ldB x) (memWrite s (s.effAddr 0) (bcdDigits (s.reg x)))

/-- FX55 (R144). -/
def execLdMemVx (x : Reg) (s : State) : Result :=
  checkRange s x.val (.ldMemVx x) (memWrite s (s.effAddr 0) (s.regsTo x))

/-- FX65 (R145). -/
def execLdVxMem (x : Reg) (s : State) : Result :=
  checkRange s x.val (.ldVxMem x)
    (thenDo (memRead s (s.effAddr 0) (x.val + 1)) fun bytes => .next (s.setRegs 0 bytes))

end Sys2Proof.Machine
end

