-- ==== Sys2Proof/Machine/KeysTimers.lean ====
section
/-! DEFINITION. The key skips, the timer accesses and the key wait (spec/45_keys_timers.md R170 to R175). -/

namespace Sys2Proof.Machine

/-- EX9E (R170); op[7:4] is ignored. -/
def execSkp (x : Reg) (_ign : BitVec 4) (s : State) : Result := .next (s.skipIf (s.keyHeld (s.reg x)))

/-- EXA1 (R171); op[7:4] is ignored. -/
def execSknp (x : Reg) (_ign : BitVec 4) (s : State) : Result := .next (s.skipIf (!s.keyHeld (s.reg x)))

/-- FX07 (R172). -/
def execLdVxDt (x : Reg) (s : State) : Result := .next (s.setReg x s.dt)

/-- FX0A (R173): the gate enters WAITING(X); `V[X]` is written later, by a key-up event (R182). -/
def execLdVxK (x : Reg) (s : State) : Result := .next { s with wait := some x }

/-- FX15 (R174). -/
def execLdDtVx (x : Reg) (s : State) : Result := .next { s with dt := s.reg x }

/-- FX18 (R175). -/
def execLdStVx (x : Reg) (s : State) : Result := .next { s with st := s.reg x }

end Sys2Proof.Machine
end

