-- ==== Sys2Proof/Machine/Cycle.lean ====
section
/-! DEFINITION. The instruction cycle (spec/40_cycle.md R80 to R89). -/

namespace Sys2Proof.Machine

/-- Whether the opcode at `PC` has both its bytes in memory: `PC <= 0xFFE` (R82, D3). -/
def State.pcInBounds (s : State) : Bool := s.pc.toNat ≤ 0xFFE

/-- The PC bound check before the fetch (R82, R83): in bounds nothing happens. Out of bounds, the policy
RESET emits PcReset and sets `PC` to 0x200; the policy FATAL raises PcOutOfRange, with no opcode (R194). -/
def State.checkPc (s : State) : State :=
  if s.pcInBounds then s
  else match s.cfg.pcPolicy with
    | .reset => { s.emit (.pcReset s.pc) with pc := romBase }
    | .fatal => s.takeFatal .pcOutOfRange s.pc none

/-- `PC <- (PC + 2) mod 2^16`, before the handler runs (R85, D2). -/
def State.advance (s : State) : State := { s with pc := s.pc + 2 }

/-- Fetch at `PC`, advance, decode and execute (R84 to R87). -/
def fetchAndExec (s : State) : Result :=
  thenDo (memReadWord s s.pc.toNat) fun op => exec (decode op) s.advance

/-- The cycle of R88: nothing when halted, a skipped slot when WAITING (R81), else the bound check and, unless
it raised a fatal error, one instruction. -/
def cycle (s : State) : Result :=
  if s.halt.isSome then .next s
  else if s.wait.isSome then .next s
  else if s.checkPc.halt.isSome then .next s.checkPc
  else fetchAndExec s.checkPc

end Sys2Proof.Machine
end

