-- ==== Sys2Proof/Machine/Frame.lean ====
section
/-! DEFINITION. The frame (spec/40_cycle.md R90 to R97) and the key-wait gate's release
(spec/45_keys_timers.md R180 to R186): its pieces, which the step runs one at a time, and the whole frame as
R91 writes it. -/

namespace Sys2Proof.Machine

/-! ## The input phase -/

/-- A key-up event completes a wait: `V[r] <- k; WAIT <- NONE` (spec/45_keys_timers.md R182). -/
def State.release (s : State) (k : Key) : State :=
  match s.wait with
  | some r => { s.setReg r (BitVec.ofNat 8 k.val) with wait := none }
  | none => s

/-- Apply one key event (R92; spec/45_keys_timers.md R184, R185). -/
def State.applyEvent (s : State) : KeyEvent → State
  | .down k => { s with keys := s.keys.set k true }
  | .up k => State.release { s with keys := s.keys.set k false } k

/-- Apply a frame's events in order (R91). -/
def State.applyEvents (s : State) (events : List KeyEvent) : State := events.foldl State.applyEvent s

/-- The events of the `j`-th frame to come: the list that the `key_events` port holds for it, else the free list
of that frame (00_scope.md R8, 60_exceptions.md R206; notes/assumptions/4.md). -/
def State.eventsAt (s : State) (j : Nat) : List KeyEvent :=
  s.keyIn.getD j (Config.keyEvents (s.frames + j))

/-- The events of the frame that begins now. -/
def State.frameEvents (s : State) : List KeyEvent := s.eventsAt 0

/-- The next frame's list leaves the port. -/
def State.afterEvents (s : State) : State := { s with keyIn := s.keyIn.tail, frames := s.frames + 1 }

/-- The input phase: the frame's events are applied. -/
def State.inputPhase (s : State) : State := s.afterEvents.applyEvents s.frameEvents

/-! ## The timer and output phases -/

/-- `max(t - 1, 0)` (R95). -/
def tick (t : Byte) : Byte := BitVec.ofNat 8 (t.toNat - 1)

/-- The timer phase (R95). -/
def State.timerPhase (s : State) : State := { s with dt := tick s.dt, st := tick s.st }

/-- The output phase: `DISP` and `ST > 0` on the ports (R96). -/
def State.outputPhase (s : State) : State := { s with shown := some ⟨s.disp, s.st.toNat > 0⟩ }

/-! ## The whole frame (R91) -/

/-- `n` slots, stopping at a fatal error (R91, R93). -/
def runSlots (n : Nat) (s : State) : Result :=
  match n with
  | 0 => .next s
  | k + 1 => if s.halt.isSome then .next s else thenDo (cycle s) (runSlots k)

/-- The frame of R91 on the events the port delivers. A fatal error ends it at once (R97). -/
def frame (s : State) : Result :=
  if s.halt.isSome then .next s
  else thenDo (runSlots s.cfg.ipf s.inputPhase) fun t =>
    .next (if t.halt.isSome then t else t.timerPhase.outputPhase)

/-! ## The pieces as steps -/

/-- The step that begins a frame: the input phase, then `IPF` slots to come (R91, R93). -/
def State.beginFrame (s : State) : State := { s.inputPhase with phase := .slots s.cfg.ipf }

/-- The step that ends a frame: the timer and output phases, then the next frame's input phase (R91). -/
def State.endFrame (s : State) : State := { s.timerPhase.outputPhase with phase := .input }

/-- After a slot: `left` slots remain, but a fatal error ends the frame at once (R93, R97). -/
def State.afterSlot (left : Nat) (s : State) : State :=
  { s with phase := if s.halt.isSome then .input else .slots left }

/-- The step that runs one slot: one cycle (R93). -/
def slot (left : Nat) (s : State) : Result := thenDo (cycle s) fun t => .next (t.afterSlot left)

/-! ## Placing an instruction where the next step fetches (notes/assumptions/2.md) -/

/-- The address the next fetch reads, after R83's recovery. -/
def State.fetchAddr (s : State) : Word := if s.pcInBounds then s.pc else romBase

/-- The phase in which the next step runs a slot: the slots in progress, else a whole frame's (at least one). -/
def Phase.ready (ipf : Nat) : Phase → Phase
  | .slots (k + 1) => .slots (k + 1)
  | .slots 0 => .slots (max ipf 1)
  | .input => .slots (max ipf 1)

/-- `s` with an opcode at the address the next step fetches from, and ready to run it: not halted, not WAITING,
in the cycle phase, and with `PC` in bounds where the policy FATAL would raise instead of fetching. -/
def State.placeOpcode (s : State) (op : Word) : State :=
  { s with
    mem := Memory.writeAll s.cfg s.mem s.fetchAddr.toNat (opcodeBytes op)
    pc := match s.cfg.pcPolicy with
      | .reset => s.pc
      | .fatal => s.fetchAddr
    wait := none
    halt := none
    phase := s.phase.ready s.cfg.ipf }

end Sys2Proof.Machine
end

