-- ==== Sys2Proof/Machine/Step.lean ====
section
/-! DEFINITION. The step: one piece of the frame of spec/40_cycle.md R91 (notes/assumptions/1.md). -/

namespace Sys2Proof.Machine

/-- One step. A halted core takes none: nothing changes (R81, spec/60_exceptions.md R196). -/
def step (s : State) : Host.Outcome State Fault Refusal :=
  if s.halt.isSome then .next s
  else match s.phase with
    | .input => .next s.beginFrame
    | .slots (left + 1) => slot left s
    | .slots 0 => .next s.endFrame

/-- `s` with the table word `w` of `nbits` bits stored where `step` fetches its next instruction, ready to run
it (notes/assumptions/2.md). -/
def State.withFetchWord (s : State) (nbits w : Nat) : State :=
  s.placeOpcode (BitVec.ofNat 16 (w % 2 ^ nbits))

end Sys2Proof.Machine
end

