-- ==== Sys2Proof/Machine/Construct.lean ====
section
/-! DEFINITION. Construction, the core's only reset (spec/70_reset_and_hazards.md R220 to R225). -/

namespace Sys2Proof.Machine

/-- `ROM_MAX` (spec/00_scope.md R6). -/
abbrev romMax : Nat := 3584

/-- Construct a core from a configuration and a ROM. None when the validation of R221 fails: no core exists
then (U20). `FONT_BASE` is valid by its type. -/
def State.construct (cfg : Config) (rom : List Byte) : Option State :=
  if cfg.valid && rom.length ≤ romMax then
    some { State.reset with cfg := cfg, mem := Memory.writeAll cfg [] romBase.toNat rom }
  else none

end Sys2Proof.Machine
end

