-- ==== Sys2Proof/Safety.lean ====
section
/-! DEFINITION. What holds of every state that a run reaches, in the terms the statements use. -/

namespace Sys2Proof.Machine

/-- A fault record says where the core stands: `PC` is `fault_pc`, no frame is in progress, and the record has
an opcode unless the cause is PcOutOfRange (spec/60_exceptions.md R190, R195; spec/40_cycle.md R97). -/
abbrev State.haltPrecise (s : State) : Prop :=
  ∀ f ∈ s.halt, s.pc = f.faultPc ∧ s.phase = .input ∧ (f.faultOp = none ↔ f.cause = .pcOutOfRange)

/-- No frame has more slots left than `IPF` (spec/40_cycle.md R93). -/
def Phase.within (ipf : Nat) : Phase → Bool
  | .input => true
  | .slots left => left ≤ ipf

/-- The invariant of the machine: memory in its canonical form, a precise halt, a budget within `IPF`. -/
abbrev State.inv (s : State) : Prop :=
  Memory.wf s.cfg s.mem ∧ s.haltPrecise ∧ s.phase.within s.cfg.ipf

/-- The core executes an instruction at its next step: it is not halted, not WAITING, a slot is left, and `PC`
is in bounds (spec/40_cycle.md R80, R82, R93). -/
abbrev State.executes (s : State) (left : Nat) : Prop :=
  s.halt = none ∧ s.wait = none ∧ s.phase = .slots (left + 1) ∧ s.pcInBounds = true

/-- The opcode the next fetch reads: at `PC` after the bound check, the byte at the lower address high
(spec/40_cycle.md R83, R84). -/
def State.nextOpcode (s : State) : Word :=
  opcodeOf (s.readByte s.checkPc.pc.toNat) (s.readByte (s.checkPc.pc.toNat + 1))

/-- The instruction the next step executes, if it executes one: not halted, not WAITING, a slot left, and no
fatal error at the bound check (spec/40_cycle.md R80). -/
def State.nextInstr (s : State) : Option Instr :=
  match s.phase with
  | .slots (_ + 1) =>
    if s.halt = none ∧ s.wait = none ∧ s.checkPc.halt = none then some (decode s.nextOpcode) else none
  | .slots 0 => none
  | .input => none

/-! ## What a step or an instruction leaves alone -/

/-- The parts of the state that a frame condition names. -/
inductive Part
  /-- `V[0]` to `V[15]`. -/
  | regs
  /-- `I`. -/
  | index
  /-- `PC`. -/
  | pc
  /-- `SP` and `STACK`. -/
  | stack
  /-- `DT`. -/
  | delayTimer
  /-- `ST`. -/
  | soundTimer
  /-- `DISP`. -/
  | display
  /-- `KEYS`. -/
  | keys
  /-- `WAIT`. -/
  | gate
  /-- `HALT`. -/
  | halt
  /-- `MEM`, every byte as it is read. -/
  | memory
  /-- The configuration. -/
  | config
  /-- The `key_events` port and the count of frames. -/
  | keyPort
  /-- The `rnd` port and the count of draws. -/
  | rndPort
  /-- The `display` and `tone` ports. -/
  | outputs
  /-- The `diag` port. -/
  | diagPort
  /-- The piece of the frame. -/
  | phase
deriving DecidableEq, Repr

/-- `t` has the same part as `s`. -/
def State.sameOn (s t : State) : Part → Prop
  | .regs => ∀ r, t.reg r = s.reg r
  | .index => t.i = s.i
  | .pc => t.pc = s.pc
  | .stack => t.sp = s.sp ∧ t.stack = s.stack
  | .delayTimer => t.dt = s.dt
  | .soundTimer => t.st = s.st
  | .display => t.disp = s.disp
  | .keys => t.keys = s.keys
  | .gate => t.wait = s.wait
  | .halt => t.halt = s.halt
  | .memory => ∀ a, t.readByte a = s.readByte a
  | .config => t.cfg = s.cfg
  | .keyPort => t.keyIn = s.keyIn ∧ t.frames = s.frames
  | .rndPort => t.rndIn = s.rndIn ∧ t.draws = s.draws
  | .outputs => t.shown = s.shown
  | .diagPort => t.diags = s.diags
  | .phase => t.phase = s.phase

/-- Every part but the named ones is the same in `t` as in `s`. -/
def State.keepsAllBut (s t : State) (changed : List Part) : Prop :=
  ∀ p, p ∉ changed → s.sameOn t p

/-- The instruction `i` answers a next state with `V[x] = b`; every other register and every other part of the
state, `PC` and every byte of memory among them, is as it was. -/
def WritesOneReg (i : Instr) (s : State) (x : Reg) (b : Byte) : Prop :=
  ∃ t, exec i s = .next t ∧ t.reg x = b ∧ (∀ r, r ≠ x → t.reg r = s.reg r) ∧ s.keepsAllBut t [.regs]

/-- The instruction `i` raises a fatal error (spec/60_exceptions.md R195): a next state that differs from the
one before the instruction's advance only in `HALT`. The address is `PC - 2`, since `PC = a + 2` on entry. -/
def RaisesFatal (cause : FatalCause) (i : Instr) (s : State) : Prop :=
  exec i s = .next { s with pc := s.pc - 2, halt := some ⟨cause, s.pc - 2, some (encode i)⟩ }

/-- The instruction `i` answers a next state whose `PC` is 2 further when `c` holds and as it was when it does
not (spec/41_control_flow.md R108); nothing else changes. -/
def SkipsWhen (i : Instr) (s : State) (c : Prop) : Prop :=
  ∃ t, exec i s = .next t ∧ (c → t.pc = s.pc + 2) ∧ (¬c → t.pc = s.pc) ∧ s.keepsAllBut t [.pc]

/-- The instruction `i` answers a next state with the number `result` in `V[x]` and, in `VF`, 1 when `flag`
holds and 0 when it does not. When `x` names `VF` itself, the flag remains if `flagWins`, else the result
(spec/42_register_alu.md R133). Every other register and every other part of the state is as it was. -/
def WritesRegAndFlag (i : Instr) (s : State) (x : Reg) (result : Nat) (flag flagWins : Prop) : Prop :=
  ∃ t, exec i s = .next t ∧
    (x ≠ vf → (t.reg x).toNat = result) ∧
    (x ≠ vf ∨ flagWins → (flag → t.reg vf = 1) ∧ (¬flag → t.reg vf = 0)) ∧
    (x = vf → ¬flagWins → (t.reg vf).toNat = result) ∧
    (∀ r, r ≠ x → r ≠ vf → t.reg r = s.reg r) ∧ s.keepsAllBut t [.regs]

/-- Whether a 1 bit of the sprite of `n` bytes at `I`, drawn at column `x0` and row `y0`, falls on the pixel of
row `py` and column `px` (spec/44_display.md R162). -/
def State.spriteCovers (s : State) (x0 y0 : Byte) (n : Nat) (py : Fin 32) (px : Fin 64) : Prop :=
  ∃ r < n, ∃ c < 8, py.val = (y0.toNat + r) % 32 ∧ px.val = (x0.toNat + c) % 64 ∧
    (s.readByte (s.effAddr r)).getLsbD (7 - c) = true

/-- The byte at `a` once FX33 has stored the digits of `V[x]` (spec/43_index_memory.md R143). -/
def State.byteAfterBcd (s : State) (x : Reg) (a : Nat) : Byte :=
  if a = s.effAddr 0 then BitVec.ofNat 8 ((s.reg x).toNat / 100)
  else if a = s.effAddr 1 then BitVec.ofNat 8 ((s.reg x).toNat / 10 % 10)
  else if a = s.effAddr 2 then BitVec.ofNat 8 ((s.reg x).toNat % 10)
  else s.readByte a

/-- The byte at `a` once FX55 has stored `V0` to `V[x]` (spec/43_index_memory.md R144). -/
def State.byteAfterStore (s : State) (x : Reg) (a : Nat) : Byte :=
  if s.effAddr 0 ≤ a ∧ a ≤ s.effAddr x.val then s.reg (Fin.ofNat 16 (a - s.effAddr 0)) else s.readByte a

/-- What a step is that runs the opcode `op` at `PC` and leaves `left` slots: the advance, the decoded instruction,
then the used slot or, after a fatal error, the end of the frame (spec/40_cycle.md R85, R86, R93, R97). -/
def slotOf (left : Nat) (s : State) (op : Word) : Result :=
  match exec (decode op) { s with pc := s.pc + 2 } with
  | .next t => .next { t with phase := if t.halt.isSome then .input else .slots left }
  | .fault e => .fault e
  | .refused e => .refused e

/-- The instruction's words are those of the row `mask`, `pattern`, and the decoder reads it from its own
word. -/
def EncodedBy (i : Instr) (mask pattern : Word) : Prop :=
  encode i &&& mask = pattern ∧ decode (encode i) = i

end Sys2Proof.Machine
end

