-- ==== Sys2Proof/Certificates/Slice0/Obligations.lean ====
section
/-! DEFINITION. The statements for the provers. Each formalises rules of spec/, named in its docstring and in
OBLIGATIONS.json. On entry of an instruction `PC = a + 2`, where `a` is its address (spec/00_scope.md R16), so
in a statement about `exec` the address is `s.pc - 2`. -/

open Sys2Proof Sys2Proof.Machine

/-! ## Decoding -/

/-- Words written out from the patterns of spec/30_encoding.md R66, one or more of each of the 16 families (R61),
decode to their instructions; three words of R67's aliases and two unassigned words of R68 among them. -/
def Obligations.WrittenWordsDecodeToTheirInstructions : Prop :=
  decode 0x00E0 = .cls 0x0E ∧ decode 0x012E = .ret 0x12 ∧ decode 0x1234 = .jp 0x234 ∧
  decode 0x2300 = .call 0x300 ∧ decode 0x3310 = .seImm 3 0x10 ∧ decode 0x4310 = .sneImm 3 0x10 ∧
  decode 0x5123 = .seReg 1 2 3 ∧ decode 0x6A42 = .ldImm 10 0x42 ∧ decode 0x7203 = .addImm 2 3 ∧
  decode 0x8456 = .shr 4 5 ∧ decode 0x8014 = .addReg 0 1 ∧
  decode 0x8008 = .noHandler 0x8008 ∧ decode 0x912F = .sneReg 1 2 15 ∧ decode 0xA123 = .ldI 0x123 ∧
  decode 0xB123 = .jpV0 0x123 ∧ decode 0xC30F = .rnd 3 0x0F ∧
  decode 0xD015 = .drw 0 1 5 ∧ decode 0xE19E = .skp 1 9 ∧ decode 0xE0A0 = .noHandler 0xE0A0 ∧
  decode 0xF533 = .ldB 5 ∧ decodeTableWord 16 0xF265 = some (.ldVxMem 2)

/-- Decoding the word of a well-formed instruction gives it back, every operand at every value (30_encoding.md
R61, R66). -/
def Obligations.DecodeOfEncodeIsTheInstruction : Prop :=
  ∀ i : Instr, i.wf = true → decode (encode i) = i

/-- Decoding is total on the 16-bit words and gives well-formed instructions (30_encoding.md R70), and no bit of an
opcode is dropped: every word is the encoding of the instruction it decodes to. That the bits an instruction
ignores are kept is the model's choice, notes/assumptions/13.md: the spec's own decode (R71) drops them. -/
def Obligations.EncodeOfDecodeIsTheOpcode : Prop :=
  ∀ op : Word, encode (decode op) = op ∧ (decode op).wf = true

/-- The nested dispatch of R71 decides as the mask and match columns of R66 do: an opcode that matches a row
decodes to an instruction of that row, no two rows match one opcode, and an opcode that matches no row is the
diagnostic no-op. -/
def Obligations.DecodeFollowsTheOpcodeMap : Prop :=
  ∀ op : Word,
    (∀ r ∈ opcodeMap, r.takes op = true → (decode op).row = r) ∧
    (∀ r ∈ opcodeMap, ∀ q ∈ opcodeMap, r.takes op = true → q.takes op = true → r = q) ∧
    ((∀ r ∈ opcodeMap, r.takes op = false) → decode op = .noHandler op)

/-- R74: a field an instruction does not use never makes its opcode unassigned and has no effect. (With an
empty stack 00EE's opcode stands in the fault record, so that case is in ReturnPopsOrUnderflows.) -/
def Obligations.UnusedFieldsHaveNoEffect : Prop :=
  ∀ (s : State) (x y z : Reg) (mid mid' : BitVec 8) (n n' : BitVec 4),
    exec (.cls mid) s = exec (.cls mid') s ∧
    (s.sp ≠ 0 → exec (.ret mid) s = exec (.ret mid') s) ∧
    exec (.seReg x y n) s = exec (.seReg x y n') s ∧
    exec (.sneReg x y n) s = exec (.sneReg x y n') s ∧
    exec (.skp x n) s = exec (.skp x n') s ∧
    exec (.sknp x n) s = exec (.sknp x n') s ∧
    exec (.shr x y) s = exec (.shr x z) s ∧
    exec (.shl x y) s = exec (.shl x z) s ∧
    (∀ i ∈ [Instr.cls mid, .ret mid, .seReg x y n, .sneReg x y n, .skp x n, .sknp x n, .shr x y, .shl x y],
      assigned (encode i) = true)

/-! ## The cycle -/

/-- A step with an instruction to run fetches its two bytes at `PC`, the byte at the lower address high, moves `PC`
past them and is `exec` of the decoded instruction (40_cycle.md R84, R85, R86). The slot is then used; a fatal
error ends the frame (R93, R97). The byte order rests on the spec's decision D1, which it takes from general
knowledge (notes/assumptions/15.md, PRESUMED), the advance before the instruction on D2, the used slot on D20,
the ended frame on D21; the phase is the model's own, notes/assumptions/1.md. -/
def Obligations.StepRunsTheDecodedInstruction : Prop :=
  ∀ (s : State) (left : Nat), s.executes left →
    step s =
      match exec (decode (opcodeOf (s.readByte s.pc.toNat) (s.readByte (s.pc.toNat + 1))))
          { s with pc := s.pc + 2 } with
      | .next t => .next { t with phase := if t.halt.isSome then .input else .slots left }
      | .fault e => .fault e
      | .refused e => .refused e

/-- R83: with `PC > 0xFFE` and a slot to run, the policy RESET emits PcReset, sets `PC` to 0x200 and goes on in the
same step, nothing else changed; the policy FATAL raises PcOutOfRange with no opcode, and only `HALT` changes
(and the frame ends). When the bound is tested is the spec's decision D3; the phase is the model's own,
notes/assumptions/1.md. -/
def Obligations.PcOverflowFollowsThePolicy : Prop :=
  ∀ (s : State) (left : Nat), s.halt = none → s.wait = none → s.phase = .slots (left + 1) →
    0xFFE < s.pc.toNat →
    (s.cfg.pcPolicy = .reset →
      step s = step { s with pc := 0x200, diags := s.diags ++ [.pcReset s.pc] }) ∧
    (s.cfg.pcPolicy = .fatal →
      step s = .next { s with halt := some ⟨.pcOutOfRange, s.pc, none⟩, phase := .input })

/-- R81: a halted core runs no cycle, and a slot of a WAITING core is skipped: it uses its place in the budget and
changes nothing else. That a skipped slot uses its place is the spec's decision D20, the phase the model's own,
notes/assumptions/1.md. -/
def Obligations.HaltedAndWaitingSlotsChangeNothing : Prop :=
  ∀ s : State,
    (s.halt ≠ none → cycle s = .next s ∧ step s = .next s) ∧
    (s.halt = none → s.wait ≠ none → cycle s = .next s ∧
      ∀ left, s.phase = .slots (left + 1) → step s = .next { s with phase := .slots left })

/-- 60_exceptions.md R196: a halted core stays halted, and no cycle, no frame and no number of steps changes any of
its state, whatever key events wait on the port. -/
def Obligations.HaltedCoreNeverChanges : Prop :=
  ∀ (s : State) (k : Nat), s.halt ≠ none →
    cycle s = .next s ∧ frame s = .next s ∧ Host.Core.run Sys2Proof.core k s = .next s

/-- R89: where `PC` goes, case by case, after a step that executes the instruction `i` at the address `a`. The spec
marks R89 as derived from R82 to R87. The advance rests on the spec's decision D2, the recovery on D3, the byte
order of the fetched word on D1 (notes/assumptions/15.md). -/
def Obligations.PcFollowsTheTable : Prop :=
  ∀ (s t : State) (i : Instr), s.nextInstr = some i → step s = .next t →
    (t.halt ≠ none → t.pc = s.checkPc.pc) ∧
    (t.halt = none →
      match i with
      | .jp nnn => t.pc.toNat = nnn.toNat
      | .call nnn => t.pc.toNat = nnn.toNat
      | .jpV0 nnn => t.pc.toNat = nnn.toNat + (s.reg 0).toNat
      | .ret _ => ∃ k : Fin 16, k.val + 1 = s.sp.val ∧ t.pc = s.stack[k]
      | .seImm x nn => t.pc = s.checkPc.pc + (if s.reg x = nn then 4 else 2)
      | .sneImm x nn => t.pc = s.checkPc.pc + (if s.reg x = nn then 2 else 4)
      | .seReg x y _ => t.pc = s.checkPc.pc + (if s.reg x = s.reg y then 4 else 2)
      | .sneReg x y _ => t.pc = s.checkPc.pc + (if s.reg x = s.reg y then 2 else 4)
      | .skp x _ => t.pc = s.checkPc.pc + (if s.keyHeld (s.reg x) then 4 else 2)
      | .sknp x _ => t.pc = s.checkPc.pc + (if s.keyHeld (s.reg x) then 2 else 4)
      | _ => t.pc = s.checkPc.pc + 2)

/-! ## Control flow -/

/-- R101 and R107: 1NNN loads `PC` with `NNN`; BNNN with `NNN + V0`, with no wrap. Neither faults, and nothing
else changes. -/
def Obligations.JumpsLoadPcAndNothingElse : Prop :=
  ∀ (s : State) (nnn : BitVec 12),
    (∃ t, exec (.jp nnn) s = .next t ∧ t.pc.toNat = nnn.toNat ∧ s.keepsAllBut t [.pc]) ∧
    (∃ t, exec (.jpV0 nnn) s = .next t ∧ t.pc.toNat = nnn.toNat + (s.reg 0).toNat ∧
      s.keepsAllBut t [.pc]) ∧
    EncodedBy (.jp nnn) 0xF000 0x1000 ∧ EncodedBy (.jpV0 nnn) 0xF000 0xB000

/-- R103 to R106: the four register skips add 2 to `PC` exactly when their comparison holds, and change nothing
else. -/
def Obligations.RegisterSkipsAddTwoExactlyWhenTrue : Prop :=
  ∀ (s : State) (x y : Reg) (nn : Byte) (n : BitVec 4),
    SkipsWhen (.seImm x nn) s (s.reg x = nn) ∧ EncodedBy (.seImm x nn) 0xF000 0x3000 ∧
    SkipsWhen (.sneImm x nn) s (s.reg x ≠ nn) ∧ EncodedBy (.sneImm x nn) 0xF000 0x4000 ∧
    SkipsWhen (.seReg x y n) s (s.reg x = s.reg y) ∧ EncodedBy (.seReg x y n) 0xF000 0x5000 ∧
    SkipsWhen (.sneReg x y n) s (s.reg x ≠ s.reg y) ∧ EncodedBy (.sneReg x y n) 0xF000 0x9000

/-- 45_keys_timers.md R170 and R171: EX9E skips when the key `Vx` is in `KEYS`, EXA1 when it is not; a value above
15 is never in `KEYS`. A value above 15 is the spec's decision D13. -/
def Obligations.KeySkipsFollowTheKeySet : Prop :=
  ∀ (s : State) (x : Reg) (n : BitVec 4),
    SkipsWhen (.skp x n) s (∃ k : Key, k.val = (s.reg x).toNat ∧ s.keys[k] = true) ∧
    SkipsWhen (.sknp x n) s (¬∃ k : Key, k.val = (s.reg x).toNat ∧ s.keys[k] = true) ∧
    EncodedBy (.skp x n) 0xF00F 0xE00E ∧ EncodedBy (.sknp x n) 0xF00F 0xE001

/-- R102: with room on the stack 2NNN writes the return address (`PC = a + 2` on entry) to `STACK[SP]`, adds 1 to
`SP` and loads `PC`; with `SP = 16` it raises StackOverflow and writes nothing. The pushed value rests on the
spec's decision D2, the fault's effect on D7. -/
def Obligations.CallPushesOrOverflows : Prop :=
  ∀ (s : State) (nnn : BitVec 12),
    (s.sp.val < 16 → ∃ t, exec (.call nnn) s = .next t ∧
      t.sp.val = s.sp.val + 1 ∧
      (∀ k : Fin 16, t.stack[k] = if k.val = s.sp.val then s.pc else s.stack[k]) ∧
      t.pc.toNat = nnn.toNat ∧ s.keepsAllBut t [.pc, .stack]) ∧
    (s.sp = 16 → RaisesFatal .stackOverflow (.call nnn) s) ∧
    EncodedBy (.call nnn) 0xF000 0x2000

/-- R100: with an entry on the stack 00EE takes 1 from `SP` and loads `PC` with the entry there, which is not
cleared; with `SP = 0` it raises StackUnderflow and changes nothing. The fault's effect rests on the spec's
decision D7. -/
def Obligations.ReturnPopsOrUnderflows : Prop :=
  ∀ (s : State) (mid : BitVec 8),
    (0 < s.sp.val → ∃ t, exec (.ret mid) s = .next t ∧
      t.sp.val + 1 = s.sp.val ∧ t.stack = s.stack ∧
      (∃ k : Fin 16, k.val = t.sp.val ∧ t.pc = s.stack[k]) ∧ s.keepsAllBut t [.pc, .stack]) ∧
    (s.sp = 0 → RaisesFatal .stackUnderflow (.ret mid) s) ∧
    EncodedBy (.ret mid) 0xF00F 0x000E

/-- The call and return property (41_control_flow.md R102, "the PC value immediately following the original 2NNN"):
a return from any state with the stack the call left comes back to the word after the call, with the stack
pointer it started from. The value of `PC` rests on the spec's decision D2. -/
def Obligations.ReturnComesBackAfterTheCall : Prop :=
  ∀ (s t u : State) (nnn : BitVec 12) (mid : BitVec 8), s.sp.val < 16 →
    exec (.call nnn) s = .next t → u.sp = t.sp → u.stack = t.stack →
    ∃ w, exec (.ret mid) u = .next w ∧ w.pc = s.pc ∧ w.sp = s.sp

/-- 10_state.md R27: from an empty stack 16 nested calls succeed and the 17th raises StackOverflow, and a return on
the empty stack raises StackUnderflow. The range of `SP` rests on the spec's decision D5, the fault's effect on
D7. -/
def Obligations.SixteenNestedCallsThenOverflow : Prop :=
  ∀ (s : State) (targets : List (BitVec 12)) (last : BitVec 12) (mid : BitVec 8),
    s.sp = 0 → targets.length = 16 →
    (∃ t, targets.foldl (fun r nnn => thenDo r (exec (.call nnn))) (.next s) = .next t ∧
      t.halt = s.halt ∧ t.sp = 16 ∧ RaisesFatal .stackOverflow (.call last) t) ∧
    RaisesFatal .stackUnderflow (.ret mid) s

/-! ## Registers, arithmetic and logic -/

/-- R120, R122, 45_keys_timers.md R172: 6XNN, 8XY0 and FX07 write `Vx` with the immediate, `Vy` and `DT`, and
nothing else. -/
def Obligations.LoadsWriteOnlyTheirRegister : Prop :=
  ∀ (s : State) (x y : Reg) (nn : Byte),
    WritesOneReg (.ldImm x nn) s x nn ∧ EncodedBy (.ldImm x nn) 0xF000 0x6000 ∧
    WritesOneReg (.ldReg x y) s x (s.reg y) ∧ EncodedBy (.ldReg x y) 0xF00F 0x8000 ∧
    WritesOneReg (.ldVxDt x) s x s.dt ∧ EncodedBy (.ldVxDt x) 0xF0FF 0xF007

/-- R121: 7XNN writes `(Vx + NN) mod 256` and no flag. -/
def Obligations.AddImmediateWrapsWithoutFlag : Prop :=
  ∀ (s : State) (x : Reg) (nn : Byte),
    WritesOneReg (.addImm x nn) s x (BitVec.ofNat 8 (((s.reg x).toNat + nn.toNat) % 256)) ∧
    EncodedBy (.addImm x nn) 0xF000 0x7000

/-- R123 to R125: 8XY1, 8XY2 and 8XY3 write the bitwise OR, AND and XOR, bit by bit, and no flag. -/
def Obligations.LogicWritesBitwiseWithoutFlag : Prop :=
  ∀ (s : State) (x y : Reg),
    (∃ b, WritesOneReg (.or x y) s x b ∧
      ∀ k, b.getLsbD k = ((s.reg x).getLsbD k || (s.reg y).getLsbD k)) ∧
    (∃ b, WritesOneReg (.and x y) s x b ∧
      ∀ k, b.getLsbD k = ((s.reg x).getLsbD k && (s.reg y).getLsbD k)) ∧
    (∃ b, WritesOneReg (.xor x y) s x b ∧
      ∀ k, b.getLsbD k = ((s.reg x).getLsbD k ^^ (s.reg y).getLsbD k)) ∧
    EncodedBy (.or x y) 0xF00F 0x8001 ∧ EncodedBy (.and x y) 0xF00F 0x8002 ∧
    EncodedBy (.xor x y) 0xF00F 0x8003

/-- R126: 8XY4 writes the sum mod 256 and the carry; with `X = 0xF` the carry remains, under both write
orders. -/
def Obligations.AddRegistersSetsTheCarry : Prop :=
  ∀ (s : State) (x y : Reg),
    WritesRegAndFlag (.addReg x y) s x (((s.reg x).toNat + (s.reg y).toNat) % 256)
      ((s.reg x).toNat + (s.reg y).toNat > 255) True ∧
    EncodedBy (.addReg x y) 0xF00F 0x8004

/-- R127 and R129: 8XY5 and 8XY7 write the difference mod 256 and, in `VF`, whether the minuend is strictly greater;
with `X = 0xF` the write order decides. The case `X = 0xF` rests on the spec's decision D9; the case `Y = 0xF`
on its decision that `Vy` is read before `VF` is written (D9, U6; notes/assumptions/16.md). -/
def Obligations.SubtractionsSetTheStrictFlag : Prop :=
  ∀ (s : State) (x y : Reg),
    WritesRegAndFlag (.sub x y) s x (((s.reg x).toNat + 256 - (s.reg y).toNat) % 256)
      ((s.reg x).toNat > (s.reg y).toNat) (s.cfg.vfOrder = .flagLast) ∧
    WritesRegAndFlag (.subn x y) s x (((s.reg y).toNat + 256 - (s.reg x).toNat) % 256)
      ((s.reg y).toNat > (s.reg x).toNat) (s.cfg.vfOrder = .flagLast) ∧
    EncodedBy (.sub x y) 0xF00F 0x8005 ∧ EncodedBy (.subn x y) 0xF00F 0x8007

/-- R128 and R130: 8XY6 and 8XYE shift `Vx` by one, logically, and write the bit shifted out to `VF`; with `X = 0xF`
the write order decides. The case `X = 0xF` rests on the spec's decision D9. That `Vy` is not read, `Y = 0xF`
included, is R128's and R130's; U6 leaves out code that reads it again (notes/assumptions/16.md). -/
def Obligations.ShiftsMoveByOneAndSetTheLostBit : Prop :=
  ∀ (s : State) (x y : Reg),
    WritesRegAndFlag (.shr x y) s x ((s.reg x).toNat / 2) ((s.reg x).toNat % 2 = 1)
      (s.cfg.vfOrder = .flagLast) ∧
    WritesRegAndFlag (.shl x y) s x ((s.reg x).toNat * 2 % 256) (128 ≤ (s.reg x).toNat)
      (s.cfg.vfOrder = .flagLast) ∧
    EncodedBy (.shr x y) 0xF00F 0x8006 ∧ EncodedBy (.shl x y) 0xF00F 0x800E

/-- R133: when `X` is not `VF`, the five flag-setting instructions leave the same state under both write orders. The
two orders are the spec's decision D9. -/
def Obligations.WriteOrderMattersOnlyForVF : Prop :=
  ∀ (s t : State) (x y : Reg) (order : VfWriteOrder), x ≠ vf →
    ∀ i ∈ [Instr.addReg x y, .sub x y, .shr x y, .subn x y, .shl x y],
      exec i s = .next t →
      exec i { s with cfg := { s.cfg with vfOrder := order } } =
        .next { t with cfg := { t.cfg with vfOrder := order } }

/-- R131, on the model's random port (notes/assumptions/5.md): CXNN writes the next draw under the mask and
consumes that one draw; a byte the port has delivered is the draw. The value of a draw that the port has not
delivered is free. -/
def Obligations.RandomByteIsTheDrawUnderTheMask : Prop :=
  ∀ (s : State) (x : Reg) (nn : Byte),
    (∃ t, exec (.rnd x nn) s = .next t ∧ t.reg x = s.nextDraw &&& nn ∧ t.reg x &&& ~~~nn = 0 ∧
      (∀ r, r ≠ x → t.reg r = s.reg r) ∧ t.rndIn = s.rndIn.tail ∧ t.draws = s.draws + 1 ∧
      s.keepsAllBut t [.regs, .rndPort]) ∧
    (∀ b rest, s.rndIn = b :: rest → s.nextDraw = b) ∧
    EncodedBy (.rnd x nn) 0xF000 0xC000

/-- 10_state.md R34, on the model's random port: only a step that executes a CXNN consumes a draw; a skipped
slot, a fatal error and the frame's other phases consume none. -/
def Obligations.OnlyRndConsumesADraw : Prop :=
  ∀ s t : State, step s = .next t → (t.rndIn ≠ s.rndIn ∨ t.draws ≠ s.draws) →
    ∃ x nn, s.nextInstr = some (.rnd x nn) ∧ t.draws = s.draws + 1

/-! ## The index register and memory -/

/-- 43_index_memory.md R140 to R142: ANNN, FX1E and FX29 write `I` and nothing else: `NNN`, `I + Vx` mod 65536,
`FONT_BASE + 5 * Vx`. That FX1E leaves `VF` alone is the spec's decision D11, FX29 above 15 its D12. -/
def Obligations.IndexLoadsWriteOnlyI : Prop :=
  ∀ (s : State) (x : Reg) (nnn : BitVec 12),
    (∃ t, exec (.ldI nnn) s = .next t ∧ t.i.toNat = nnn.toNat ∧ s.keepsAllBut t [.index]) ∧
    (∃ t, exec (.addIVx x) s = .next t ∧ t.i.toNat = (s.i.toNat + (s.reg x).toNat) % 65536 ∧
      s.keepsAllBut t [.index]) ∧
    (∃ t, exec (.ldF x) s = .next t ∧ t.i.toNat = s.cfg.fontBase.val + 5 * (s.reg x).toNat ∧
      s.keepsAllBut t [.index]) ∧
    EncodedBy (.ldI nnn) 0xF000 0xA000 ∧ EncodedBy (.addIVx x) 0xF0FF 0xF01E ∧
    EncodedBy (.ldF x) 0xF0FF 0xF029

/-- R143: with `I + 2 <= 0xFFF` FX33 writes the hundreds, tens and ones of `Vx` at `I`, `I + 1`, `I + 2` and changes
no other byte and no other state, `I` included; else it raises MemoryBound and writes nothing. The fault is the
spec's decision D6, its effect D7, that `I` stays D10. -/
def Obligations.BcdStoresThreeDigitsOrFaults : Prop :=
  ∀ (s : State) (x : Reg), Memory.wf s.cfg s.mem →
    (s.effAddr 2 ≤ 0xFFF → ∃ t, exec (.ldB x) s = .next t ∧
      (t.readByte (s.effAddr 0)).toNat = (s.reg x).toNat / 100 ∧
      (t.readByte (s.effAddr 1)).toNat = (s.reg x).toNat / 10 % 10 ∧
      (t.readByte (s.effAddr 2)).toNat = (s.reg x).toNat % 10 ∧
      (∀ a, a < s.effAddr 0 ∨ s.effAddr 2 < a → t.readByte a = s.readByte a) ∧
      s.keepsAllBut t [.memory]) ∧
    (0xFFF < s.effAddr 2 → RaisesFatal .memoryBound (.ldB x) s) ∧
    EncodedBy (.ldB x) 0xF0FF 0xF033

/-- R144: with `I + X <= 0xFFF` FX55 writes `V0` to `Vx` at `I` to `I + X` and changes no other byte and no other
state, `I` included; else it raises MemoryBound and writes no byte. The fault's effect is the spec's decision
D7, that `I` stays D10. -/
def Obligations.StoreRegistersOrFault : Prop :=
  ∀ (s : State) (x : Reg), Memory.wf s.cfg s.mem →
    (s.effAddr x.val ≤ 0xFFF → ∃ t, exec (.ldMemVx x) s = .next t ∧
      (∀ r : Reg, r.val ≤ x.val → t.readByte (s.effAddr r.val) = s.reg r) ∧
      (∀ a, a < s.effAddr 0 ∨ s.effAddr x.val < a → t.readByte a = s.readByte a) ∧
      s.keepsAllBut t [.memory]) ∧
    (0xFFF < s.effAddr x.val → RaisesFatal .memoryBound (.ldMemVx x) s) ∧
    EncodedBy (.ldMemVx x) 0xF0FF 0xF055

/-- R145: with `I + X <= 0xFFF` FX65 loads `V0` to `Vx` from `I` to `I + X` and changes no other register and no
other state, every byte of memory and `I` included; else it raises MemoryBound and writes no register. The
fault's effect is the spec's decision D7, that `I` stays D10. -/
def Obligations.LoadRegistersOrFault : Prop :=
  ∀ (s : State) (x : Reg),
    (s.effAddr x.val ≤ 0xFFF → ∃ t, exec (.ldVxMem x) s = .next t ∧
      (∀ r : Reg, t.reg r = if r.val ≤ x.val then s.readByte (s.effAddr r.val) else s.reg r) ∧
      s.keepsAllBut t [.regs]) ∧
    (0xFFF < s.effAddr x.val → RaisesFatal .memoryBound (.ldVxMem x) s) ∧
    EncodedBy (.ldVxMem x) 0xF0FF 0xF065

/-- What FX55 stored, FX65 loads back, from any state with the same memory and the same `I`, whatever its registers
(43_index_memory.md R144, R145, R146). That `I` stays is the spec's decision D10. -/
def Obligations.LoadGivesBackWhatStoreWrote : Prop :=
  ∀ (s t u : State) (x : Reg), Memory.wf s.cfg s.mem → s.effAddr x.val ≤ 0xFFF →
    exec (.ldMemVx x) s = .next t → u.mem = t.mem → u.cfg = t.cfg → u.i = s.i →
    ∃ w, exec (.ldVxMem x) u = .next w ∧ ∀ r : Reg, r.val ≤ x.val → w.reg r = s.reg r

/-- 20_memory.md R54: a byte that FX55 or FX33 has just stored is the one the very next step fetches, with no fence
or delay, whichever bytes of the word at `PC` the store covers: both, one or none. The spec marks R54 as derived
from R40 and R51. The byte order rests on the spec's decision D1, which it takes from general knowledge
(notes/assumptions/15.md, PRESUMED), the advance on D2, the used slot and the ended frame on D20 and D21; the
phase is the model's own, notes/assumptions/1.md. -/
def Obligations.StoredOpcodeIsFetchedAtOnce : Prop :=
  ∀ (s t : State) (x : Reg) (left : Nat), Memory.wf s.cfg s.mem → t.executes left →
    (exec (.ldMemVx x) s = .next t →
      step t = slotOf left t (opcodeOf (s.byteAfterStore x t.pc.toNat) (s.byteAfterStore x (t.pc.toNat + 1)))) ∧
    (exec (.ldB x) s = .next t →
      step t = slotOf left t (opcodeOf (s.byteAfterBcd x t.pc.toNat) (s.byteAfterBcd x (t.pc.toNat + 1))))

/-! ## The display -/

/-- 44_display.md R160: 00E0 sets every pixel to 0 and changes nothing else, `VF` included. -/
def Obligations.ClearScreenClearsEveryPixel : Prop :=
  ∀ (s : State) (mid : BitVec 8),
    (∃ t, exec (.cls mid) s = .next t ∧ (∀ y x, t.disp.pixel y x = false) ∧
      s.keepsAllBut t [.display]) ∧
    EncodedBy (.cls mid) 0xF00F 0x0000

/-- R161: DXYN flips exactly the pixels under the sprite's 1 bits, both coordinates wrapping, and sets `VF` to
whether one of them was set; no other register, byte or state changes. With `N > 0` and a sprite past 0xFFF it
raises MemoryBound and draws nothing; with `N = 0` it reads nothing and cannot fault. The fault is the spec's
decision D6, its effect D7, the bit order D14, `N = 0` D15. -/
def Obligations.DrawFlipsTheSpritesPixels : Prop :=
  ∀ (s : State) (x y : Reg) (n : BitVec 4),
    (n = 0 ∨ s.effAddr (n.toNat - 1) ≤ 0xFFF →
      ∃ t, exec (.drw x y n) s = .next t ∧
        (∀ py px,
          (s.spriteCovers (s.reg x) (s.reg y) n.toNat py px →
            t.disp.pixel py px = !s.disp.pixel py px) ∧
          (¬s.spriteCovers (s.reg x) (s.reg y) n.toNat py px →
            t.disp.pixel py px = s.disp.pixel py px)) ∧
        ((∃ py px, s.spriteCovers (s.reg x) (s.reg y) n.toNat py px ∧
            s.disp.pixel py px = true) → t.reg vf = 1) ∧
        ((¬∃ py px, s.spriteCovers (s.reg x) (s.reg y) n.toNat py px ∧
            s.disp.pixel py px = true) → t.reg vf = 0) ∧
        (∀ r, r ≠ vf → t.reg r = s.reg r) ∧ s.keepsAllBut t [.regs, .display]) ∧
    (n ≠ 0 → 0xFFF < s.effAddr (n.toNat - 1) → RaisesFatal .memoryBound (.drw x y n) s) ∧
    EncodedBy (.drw x y n) 0xF000 0xD000

/-- R163: drawing the same sprite again at the same place, with the buffer and the sprite bytes unchanged in
between, gives back every pixel. The second draw sets `VF` exactly when a pixel under a 1 bit was 0 before the
first draw: so it does when the sprite has a 1 bit and the display was clear, and an all-zero sprite sets `VF` to 0
both times. (R163 says that the second draw sets `VF` for every sprite with a 1 bit. By R161 that fails where
every pixel under the sprite was set: notes/assumptions/21.md.) The second draw may name its coordinates by other
registers. The all-zero case is the spec's inference in R163, `N = 0` its decision D15. -/
def Obligations.DrawingTwiceGivesBackTheDisplay : Prop :=
  ∀ (s t u : State) (x y x' y' : Reg) (n : BitVec 4),
    (n = 0 ∨ s.effAddr (n.toNat - 1) ≤ 0xFFF) → exec (.drw x y n) s = .next t →
    u.disp = t.disp → u.i = s.i → (∀ a, u.readByte a = s.readByte a) →
    u.reg x' = s.reg x → u.reg y' = s.reg y →
    ∃ w, exec (.drw x' y' n) u = .next w ∧ w.disp = s.disp ∧
      ((∃ py px, s.spriteCovers (s.reg x) (s.reg y) n.toNat py px ∧ s.disp.pixel py px = false) →
        w.reg vf = 1) ∧
      ((¬∃ py px, s.spriteCovers (s.reg x) (s.reg y) n.toNat py px ∧ s.disp.pixel py px = false) →
        w.reg vf = 0) ∧
      ((∃ r < n.toNat, s.readByte (s.effAddr r) ≠ 0) → s.disp = Display.blank → w.reg vf = 1) ∧
      ((∀ r < n.toNat, s.readByte (s.effAddr r) = 0) → t.reg vf = 0 ∧ w.reg vf = 0)

/-! ## Keys, timers and the diagnostic no-op -/

/-- 45_keys_timers.md R174 and R175: FX15 and FX18 write `DT` and `ST` with `Vx`, and nothing else. -/
def Obligations.TimerLoadsWriteOnlyTheirTimer : Prop :=
  ∀ (s : State) (x : Reg),
    (∃ t, exec (.ldDtVx x) s = .next t ∧ t.dt = s.reg x ∧ s.keepsAllBut t [.delayTimer]) ∧
    (∃ t, exec (.ldStVx x) s = .next t ∧ t.st = s.reg x ∧ s.keepsAllBut t [.soundTimer]) ∧
    EncodedBy (.ldDtVx x) 0xF0FF 0xF015 ∧ EncodedBy (.ldStVx x) 0xF0FF 0xF018

/-- R173: FX0A puts the gate in WAITING(X) and changes nothing else: `V[X]` is not written yet, and `PC` stays at
`a + 2`. -/
def Obligations.KeyWaitOnlyEntersWaiting : Prop :=
  ∀ (s : State) (x : Reg),
    (∃ t, exec (.ldVxK x) s = .next t ∧ t.wait = some x ∧ s.keepsAllBut t [.gate]) ∧
    EncodedBy (.ldVxK x) 0xF0FF 0xF00A

/-- 40_cycle.md R87: the diagnostic no-op emits one UnknownOpcode event with its address and its opcode and changes
nothing else; `PC` stays at `a + 2`. The diagnostic port is the spec's decision D24. -/
def Obligations.UnknownOpcodeIsOnlyLogged : Prop :=
  ∀ (s : State) (op : Word),
    ∃ t, exec (.noHandler op) s = .next t ∧
      t.diags = s.diags ++ [.unknownOpcode (s.pc - 2) op] ∧ s.keepsAllBut t [.diagPort]

/-! ## Which instructions write what: rules of the whole machine -/

/-- 44_display.md R164: only 00E0 and DXYN write `DISP`. -/
def Obligations.OnlyClearAndDrawWriteTheDisplay : Prop :=
  ∀ s t : State, step s = .next t → t.disp ≠ s.disp →
    (∃ mid, s.nextInstr = some (.cls mid)) ∨ (∃ x y n, s.nextInstr = some (.drw x y n))

/-- 10_state.md R23: only ANNN, FX1E and FX29 write `I`. That no memory access writes `I` is the spec's decision
D10. -/
def Obligations.OnlyThreeInstructionsWriteI : Prop :=
  ∀ s t : State, step s = .next t → t.i ≠ s.i →
    (∃ nnn, s.nextInstr = some (.ldI nnn)) ∨ (∃ x, s.nextInstr = some (.addIVx x)) ∨
      (∃ x, s.nextInstr = some (.ldF x))

/-- 10_state.md R26: only 2NNN pushes and only 00EE pops; `SP` moves by one, and a pop leaves every entry as it
is. -/
def Obligations.OnlyCallPushesAndOnlyReturnPops : Prop :=
  ∀ s t : State, step s = .next t → (t.sp ≠ s.sp ∨ t.stack ≠ s.stack) →
    (∃ nnn, s.nextInstr = some (.call nnn) ∧ t.sp.val = s.sp.val + 1) ∨
      (∃ mid, s.nextInstr = some (.ret mid) ∧ t.sp.val + 1 = s.sp.val ∧ t.stack = s.stack)

/-- 10_state.md R28 and 70_reset_and_hazards.md R228: `DT` changes only by FX15 and at the end of a frame, `ST` only
by FX18 and at the end of a frame, and there each goes down by one at most and never below 0. The phase is the
model's own, notes/assumptions/1.md. -/
def Obligations.TimersChangeOnlyByTheirLoadOrAtFrameEnd : Prop :=
  ∀ s t : State, step s = .next t →
    (t.dt ≠ s.dt → (∃ x, s.nextInstr = some (.ldDtVx x)) ∨
      s.phase = .slots 0 ∧ t.dt.toNat = s.dt.toNat - 1) ∧
    (t.st ≠ s.st → (∃ x, s.nextInstr = some (.ldStVx x)) ∨
      s.phase = .slots 0 ∧ t.st.toNat = s.st.toNat - 1)

/-- 10_state.md R30 and R31, 45_keys_timers.md R181: `KEYS` changes only in the input phase; only FX0A makes a
running core wait, on the register it names; only a key-up event in the input phase ends a wait. That events
come in the input phase only is the spec's decision D18. -/
def Obligations.KeysAndGateChangeOnlyAsTheGateSays : Prop :=
  ∀ s t : State, step s = .next t →
    (t.keys ≠ s.keys → s.phase = .input) ∧
    (∀ r, t.wait = some r → s.wait ≠ some r → s.wait = none ∧ s.nextInstr = some (.ldVxK r)) ∧
    (∀ r, s.wait = some r → t.wait ≠ some r →
      t.wait = none ∧ s.phase = .input ∧ ∃ k, KeyEvent.up k ∈ s.frameEvents)

/-- 20_memory.md R42, R45, R49: only FX33 and FX55 change a byte of memory, and only one at an address they name.
That no address is protected is the spec's decision D22. -/
def Obligations.OnlyStoresChangeMemory : Prop :=
  ∀ (s t : State) (a : Nat), step s = .next t → t.readByte a ≠ s.readByte a →
    (∃ x, s.nextInstr = some (.ldB x) ∧ s.effAddr 0 ≤ a ∧ a ≤ s.effAddr 2 ∧ a ≤ 0xFFF) ∨
      (∃ x, s.nextInstr = some (.ldMemVx x) ∧ s.effAddr 0 ≤ a ∧ a ≤ s.effAddr x.val ∧ a ≤ 0xFFF)

/-- 10_state.md R21: an instruction changes `VF` only as the flag of the six rows or as its destination register:
6XNN, 7XNN, 8XY0 to 8XY3, CXNN and FX07 with `X = 0xF`, FX65 with `X = 0xF`. -/
def Obligations.VfIsWrittenOnlyAsFlagOrDestination : Prop :=
  ∀ (s t : State) (i : Instr), exec i s = .next t → t.reg vf ≠ s.reg vf →
    match i with
    | .addReg _ _ | .sub _ _ | .shr _ _ | .subn _ _ | .shl _ _ | .drw _ _ _ => True
    | .ldImm x _ | .addImm x _ | .rnd x _ => x = vf
    | .ldReg x _ | .or x _ | .and x _ | .xor x _ => x = vf
    | .ldVxDt x | .ldVxMem x => x = vf
    | _ => False

/-- 10_state.md R37: the configuration is fixed for the session. -/
def Obligations.NoStepWritesTheConfiguration : Prop :=
  ∀ s t : State, step s = .next t → t.cfg = s.cfg

/-! ## Fatal errors, diagnostics and the ports -/

/-- 60_exceptions.md R190 and R195: a step that sets `HALT` changes nothing else of the state after the bound check
(and ends the frame): the record has the address and the opcode of the instruction, and the cause is the one
whose condition of R190 holds. That FX33 and DXYN fault is the spec's decision D6, that a fault has no partial
effect D7; the phase is the model's own, notes/assumptions/1.md. -/
def Obligations.FatalErrorsArePreciseAndListed : Prop :=
  ∀ (s t : State) (f : FaultRecord), s.halt = none → step s = .next t → t.halt = some f →
    t = { s.checkPc with halt := some f, phase := .input } ∧ f.faultPc = s.checkPc.pc ∧
    ((f.cause = .pcOutOfRange ∧ f.faultOp = none ∧ 0xFFE < s.pc.toNat ∧ s.cfg.pcPolicy = .fatal) ∨
      (f.faultOp = some s.nextOpcode ∧
        ((f.cause = .stackOverflow ∧ s.sp = 16 ∧ ∃ nnn, s.nextInstr = some (.call nnn)) ∨
          (f.cause = .stackUnderflow ∧ s.sp = 0 ∧ ∃ mid, s.nextInstr = some (.ret mid)) ∨
          (f.cause = .memoryBound ∧
            ((∃ x, s.nextInstr = some (.ldB x) ∧ 0xFFF < s.effAddr 2) ∨
              (∃ x, s.nextInstr = some (.ldMemVx x) ∧ 0xFFF < s.effAddr x.val) ∨
              (∃ x, s.nextInstr = some (.ldVxMem x) ∧ 0xFFF < s.effAddr x.val) ∨
              (∃ x y n, s.nextInstr = some (.drw x y n) ∧ n ≠ 0 ∧
                0xFFF < s.effAddr (n.toNat - 1)))))))

/-- 00_scope.md R13: no access ever names an address outside memory, and every instruction has its meaning: every
instruction in every state, and every step, answers a next state. A fatal error counts as such an answer: the
model takes it as a next state with `halt` set (notes/assumptions/9.md, DEDUCED), and raises no fault and no
refusal of the host's interface (notes/assumptions/12.md, DEDUCED). -/
def Obligations.EveryInstructionAndEveryStepAnswersNext : Prop :=
  (∀ (i : Instr) (s : State), ∃ t, exec i s = .next t) ∧ ∀ s : State, ∃ t, step s = .next t

/-- 60_exceptions.md R197 and R198: a step puts at most a PcReset and then an UnknownOpcode on the diagnostic port,
each exactly on its condition, and takes none away. The port is the spec's decision D24, the order the spec's
inference in R198. -/
def Obligations.DiagnosticsAreTheTwoConditionsInOrder : Prop :=
  ∀ s t : State, step s = .next t →
    t.diags = s.diags ++
      (if s.nextInstr ≠ none ∧ 0xFFE < s.pc.toNat then [.pcReset s.pc] else []) ++
      (match s.nextInstr with
        | some (.noHandler op) => [.unknownOpcode s.checkPc.pc op]
        | _ => [])

/-- 60_exceptions.md R197, 10_state.md R39: nothing in the core reads the output ports back: two states that
differ only in them step to states that differ only in them. -/
def Obligations.OutputPortsAreNeverReadBack : Prop :=
  ∀ (s t : State) (diags : List Diag) (shown : Option FrameOut), step s = .next t →
    ∃ diags' shown', step { s with diags := diags, shown := shown } =
      .next { t with diags := diags', shown := shown' }

/-! ## Key events and frames -/

/-- 40_cycle.md R92: what one key event does to `KEYS`, `WAIT` and the waiting register, and that it does nothing
else. -/
def Obligations.KeyEventsUpdateKeysAndRelease : Prop :=
  ∀ (s : State) (k : Key),
    ((s.applyEvent (.down k)).keys[k] = true ∧
      (∀ j : Key, j ≠ k → (s.applyEvent (.down k)).keys[j] = s.keys[j]) ∧
      s.keepsAllBut (s.applyEvent (.down k)) [.keys]) ∧
    ((s.applyEvent (.up k)).keys[k] = false ∧
      (∀ j : Key, j ≠ k → (s.applyEvent (.up k)).keys[j] = s.keys[j]) ∧
      (s.applyEvent (.up k)).wait = none ∧
      (∀ r, s.wait = some r → ((s.applyEvent (.up k)).reg r).toNat = k.val) ∧
      (∀ r, s.wait ≠ some r → (s.applyEvent (.up k)).reg r = s.reg r) ∧
      s.keepsAllBut (s.applyEvent (.up k)) [.keys, .gate, .regs])

/-- 45_keys_timers.md R182 and R183: in one frame's events the first key-up completes the wait with its key code,
later events do not write a register, and key-downs alone leave the core WAITING. Which key-up ends a wait is
the spec's decision D19. -/
def Obligations.FirstKeyUpCompletesTheWait : Prop :=
  ∀ (s : State) (r : Reg) (before after : List KeyEvent) (k : Key), s.wait = some r →
    (∀ e ∈ before, ∃ j, e = .down j) →
    ((s.applyEvents before).wait = some r ∧ ∀ q, (s.applyEvents before).reg q = s.reg q) ∧
    ((s.applyEvents (before ++ .up k :: after)).wait = none ∧
      ((s.applyEvents (before ++ .up k :: after)).reg r).toNat = k.val ∧
      ∀ q, q ≠ r → (s.applyEvents (before ++ .up k :: after)).reg q = s.reg q)

/-- 40_cycle.md R91, 60_exceptions.md R206: a step in the input phase applies the events of the frame in order and
opens the frame's slots. The events are the list the port holds for the frame, whatever it is, and are free where
the port holds none (00_scope.md R8). That they come at the frame's start is the spec's decision D18; the port as
a list, the free list and the phase are the model's own, notes/assumptions/1.md and 4.md. -/
def Obligations.FrameBeginsWithItsEvents : Prop :=
  ∀ s : State, s.halt = none → s.phase = .input →
    step s = .next
      { s.frameEvents.foldl State.applyEvent { s with keyIn := s.keyIn.tail, frames := s.frames + 1 } with
        phase := .slots s.cfg.ipf } ∧
    (∀ events rest, s.keyIn = events :: rest → s.frameEvents = events) ∧
    (s.keyIn = [] → s.frameEvents = Config.keyEvents s.frames)

/-- 40_cycle.md R95 and R96: when the budget is used up, both timers go down by one, never below 0, and the ports
present `DISP` and whether `ST` is still above 0 after that; nothing else changes (and the next frame's input
phase is next), whatever the gate state. The phase is the model's own, notes/assumptions/1.md. -/
def Obligations.FrameEndTicksTimersAndPresentsOutputs : Prop :=
  ∀ s : State, s.halt = none → s.phase = .slots 0 →
    ∃ t, step s = .next t ∧ t.dt.toNat = s.dt.toNat - 1 ∧ t.st.toNat = s.st.toNat - 1 ∧
      t.shown = some ⟨s.disp, decide (t.st.toNat > 0)⟩ ∧ t.phase = .input ∧
      s.keepsAllBut t [.delayTimer, .soundTimer, .outputs, .phase]

/-- The steps of one frame are the frame of 40_cycle.md R91: from its input phase, `IPF + 2` steps do what `frame`,
R91's pseudocode on the events the port delivers, does, a frame cut short by a fatal error included. The place
of the events is the spec's decision D18, the budget D20, the cut short frame D21; the phase is the model's own,
notes/assumptions/1.md. -/
def Obligations.FrameIsItsSteps : Prop :=
  ∀ s : State, s.phase = .input →
    Host.Core.run Sys2Proof.core (s.cfg.ipf + 2) s = frame s

/-- 45_keys_timers.md R183, R186: over any number of frames without a key-up event a WAITING core counts its timers
down, to `max(0, t - F)` after `F` frames, and stays as it is but for its timers and `KEYS`, which key-downs may
change: registers, `PC`, `I`, stack, memory, display, gate and halt do not change. The `key_events` port is
consumed and the `display` and `tone` ports are presented as in any frame. The events of a frame are any list, the
port's or a free one (notes/assumptions/4.md). The steps of a frame are the model's own, notes/assumptions/1.md. -/
def Obligations.WaitingFramesOnlyCountTheTimersDown : Prop :=
  ∀ (frames : Nat) (s : State), s.halt = none → s.phase = .input → s.wait ≠ none →
    (∀ j < frames, ∀ e ∈ s.eventsAt j, ∃ k, e = .down k) →
    ∃ t, Host.Core.run Sys2Proof.core (frames * (s.cfg.ipf + 2)) s = .next t ∧
      t.dt.toNat = s.dt.toNat - frames ∧ t.st.toNat = s.st.toNat - frames ∧
      s.keepsAllBut t [.delayTimer, .soundTimer, .keys, .keyPort, .outputs]

/-! ## Construction and the invariant -/

/-- 10_state.md R38, 70_reset_and_hazards.md R223, R224: the state after construction, register by register, for the
ROM of 0 bytes and the default configuration; every byte of memory is the font's or 0. (IPF and IPF_MAX of the
default, the empty input ports and the phase are the model's choice: notes/assumptions/1.md, 3.md, 4.md, 5.md.)
The zeros and the entry point are the spec's decision D17, the font its D16. -/
def Obligations.ResetStateHoldsTheConstructionValues : Prop :=
  (∀ r, State.reset.reg r = 0) ∧ State.reset.i = 0 ∧ State.reset.pc = 0x200 ∧ State.reset.sp = 0 ∧
  (∀ k : Fin 16, State.reset.stack[k] = 0) ∧ State.reset.dt = 0 ∧ State.reset.st = 0 ∧
  (∀ y x, State.reset.disp.pixel y x = false) ∧ (∀ k : Key, State.reset.keys[k] = false) ∧
  State.reset.wait = none ∧ State.reset.halt = none ∧
  (∀ (g : Fin 16) (row : Fin 5),
    State.reset.readByte (0x50 + 5 * g.val + row.val) = Config.standardFont[g][row]) ∧
  (∀ a, a < 0x50 ∨ 0xA0 ≤ a → State.reset.readByte a = 0) ∧
  State.construct Config.default [] = some State.reset

/-- 20_memory.md R58 and 70_reset_and_hazards.md R220, R221: a valid configuration and a ROM that fits give a core
whose memory holds the font at `FONT_BASE`, the ROM at 0x200 and 0 elsewhere, with every other piece of state as
after reset; anything else gives no core. The zeros are the spec's decision D17. -/
def Obligations.ConstructionLaysOutFontAndRom : Prop :=
  ∀ (cfg : Config) (rom : List Byte),
    (¬(1 ≤ cfg.ipf ∧ cfg.ipf ≤ cfg.ipfMax ∧ rom.length ≤ 3584) → State.construct cfg rom = none) ∧
    (1 ≤ cfg.ipf → cfg.ipf ≤ cfg.ipfMax → rom.length ≤ 3584 →
      ∃ s, State.construct cfg rom = some s ∧ s.cfg = cfg ∧ s.inv ∧
        (∀ (g : Fin 16) (row : Fin 5),
          s.readByte (cfg.fontBase.val + 5 * g.val + row.val) = cfg.font[g][row]) ∧
        (∀ (k : Nat) (h : k < rom.length), s.readByte (0x200 + k) = rom[k]) ∧
        (∀ a, (a < cfg.fontBase.val ∨ cfg.fontBase.val + 80 ≤ a) →
          (a < 0x200 ∨ 0x200 + rom.length ≤ a) → s.readByte a = 0) ∧
        State.reset.keepsAllBut s [.memory, .config])

/-- The invariant holds after reset. -/
def Obligations.ResetMeetsTheInvariant : Prop := State.reset.inv

/-- Every step keeps the invariant: memory in its canonical form, inside 0x000 to 0xFFF (20_memory.md R40); a halted
core's `PC` is its `fault_pc`, no frame is in progress, and only PcOutOfRange has no opcode (60_exceptions.md
R190, R195, 40_cycle.md R97); no more slots than `IPF` are left (R93). The precise halt is the spec's decision
D7; the phase is the model's own, notes/assumptions/1.md. -/
def Obligations.StepKeepsTheInvariant : Prop :=
  ∀ s t : State, s.inv → step s = .next t → t.inv
end

