-- ==== Sys2Proof/Laws/Memory.lean ====
section
/-! SUPPORT. The memory: a byte reads as it was last written, a write leaves every other byte alone, and every
operation keeps the canonical form. -/

namespace Sys2Proof.Machine

namespace Memory

variable {cfg : Config} {m : Memory}

@[simp] theorem read_nil (cfg : Config) (a : Nat) : read cfg [] a = initial cfg a := rfl

theorem read_cons (cfg : Config) (b : Nat) (w : Byte) (rest : Memory) (a : Nat) :
    read cfg ((b, w) :: rest) a = if a = b then w else read cfg rest a := rfl

/-- A write leaves every other byte alone, whatever the list. -/
theorem read_write_of_ne (cfg : Config) (m : Memory) {a b : Nat} (w : Byte) (h : b ≠ a) :
    read cfg (write cfg m a w) b = read cfg m b := by
  induction m with
  | nil => simp only [write]; split <;> simp [read_cons, h]
  | cons c rest ih =>
    obtain ⟨k, u⟩ := c
    simp only [write]
    split
    · split <;> simp [read_cons, h]
    · split
      · next e => subst e; split <;> simp [read_cons, h]
      · simp [read_cons, ih]

/-- An address below all the listed ones is unlisted. -/
theorem read_of_lt (cfg : Config) {m : Memory} {a : Nat} (h : ∀ c ∈ m, a < c.1) :
    read cfg m a = initial cfg a := by
  induction m with
  | nil => rfl
  | cons c rest ih =>
    obtain ⟨k, u⟩ := c
    have hk : a < k := h (k, u) List.mem_cons_self
    rw [read_cons, if_neg (by omega)]
    exact ih fun c hc => h c (List.mem_cons_of_mem _ hc)

theorem wf_tail {c : Host.Cell} {rest : Memory} (h : wf cfg (c :: rest)) : wf cfg rest :=
  ⟨(List.pairwise_cons.mp h.1).2, fun d hd => h.2 d (List.mem_cons_of_mem _ hd)⟩

theorem wf_head_lt {c : Host.Cell} {rest : Memory} (h : wf cfg (c :: rest)) :
    ∀ d ∈ rest, c.1 < d.1 := (List.pairwise_cons.mp h.1).1

theorem wf_cons {c : Host.Cell} {rest : Memory} (hlt : ∀ d ∈ rest, c.1 < d.1)
    (hc : c.1 < 0x1000 ∧ c.2 ≠ initial cfg c.1) (hrest : wf cfg rest) : wf cfg (c :: rest) :=
  ⟨List.pairwise_cons.mpr ⟨hlt, hrest.1⟩, List.forall_mem_cons.mpr ⟨hc, hrest.2⟩⟩

/-- A byte reads as it was last written. -/
theorem read_write_self (h : wf cfg m) (a : Nat) (w : Byte) :
    read cfg (write cfg m a w) a = w := by
  induction m with
  | nil => simp only [write]; split <;> simp_all [read_cons]
  | cons c rest ih =>
    obtain ⟨k, u⟩ := c
    have hlt := wf_head_lt h
    simp only [write]
    split
    · next hak =>
      split
      · next e => rw [read_of_lt, e]; intro d hd
                  rcases List.mem_cons.mp hd with rfl | hd
                  · exact hak
                  · exact lt_trans hak (hlt d hd)
      · simp [read_cons]
    · split
      · next e =>
        subst e
        split
        · next e => rw [read_of_lt cfg hlt, e]
        · simp [read_cons]
      · next hne => rw [read_cons, if_neg hne, ih (wf_tail h)]

/-- What a write lists was listed before, or is the written cell. -/
theorem mem_write {a : Nat} {w : Byte} {c : Host.Cell} (h : c ∈ write cfg m a w) :
    c ∈ m ∨ c = (a, w) ∧ w ≠ initial cfg a := by
  induction m with
  | nil =>
    simp only [write] at h
    split at h <;> simp_all
  | cons d rest ih =>
    obtain ⟨k, u⟩ := d
    simp only [write] at h
    split at h
    · split at h <;> simp_all [or_comm]
    · split at h
      · split at h
        · exact .inl (List.mem_cons_of_mem _ h)
        · rcases List.mem_cons.mp h with e | h
          · exact .inr ⟨e, ‹_›⟩
          · exact .inl (List.mem_cons_of_mem _ h)
      · rcases List.mem_cons.mp h with e | h
        · exact .inl (e ▸ List.mem_cons_self)
        · exact (ih h).imp_left (List.mem_cons_of_mem _)

/-- A write keeps the canonical form. -/
theorem write_wf (h : wf cfg m) {a : Nat} (ha : a < 0x1000) (w : Byte) : wf cfg (write cfg m a w) := by
  induction m with
  | nil =>
    simp only [write]
    split
    · exact h
    · exact wf_cons (by simp) ⟨ha, ‹_›⟩ h
  | cons c rest ih =>
    obtain ⟨k, u⟩ := c
    have hlt := wf_head_lt h
    simp only [write]
    split
    · next hak =>
      split
      · exact h
      · refine wf_cons ?_ ⟨ha, ‹_›⟩ h
        intro d hd
        rcases List.mem_cons.mp hd with rfl | hd
        · exact hak
        · exact lt_trans hak (hlt d hd)
    · next hak =>
      split
      · next e =>
        subst e
        split
        · exact wf_tail h
        · exact wf_cons hlt ⟨ha, ‹_›⟩ (wf_tail h)
      · next hne =>
        refine wf_cons ?_ (h.2 (k, u) List.mem_cons_self) (ih (wf_tail h))
        intro d hd
        rcases mem_write hd with hd | ⟨rfl, -⟩
        · exact hlt d hd
        · show k < a
          omega

/-- Writing consecutive bytes keeps the canonical form. -/
theorem writeAll_wf (h : wf cfg m) {a : Nat} {bytes : List Byte} (ha : a + bytes.length ≤ 0x1000) :
    wf cfg (writeAll cfg m a bytes) := by
  induction bytes generalizing m a with
  | nil => exact h
  | cons b rest ih =>
    simp only [List.length_cons] at ha
    exact ih (write_wf h (by omega) b) (by omega)

/-- Writing consecutive bytes leaves every byte outside them alone. -/
theorem read_writeAll_outside (cfg : Config) (m : Memory) {a b : Nat} {bytes : List Byte}
    (h : b < a ∨ a + bytes.length ≤ b) : read cfg (writeAll cfg m a bytes) b = read cfg m b := by
  induction bytes generalizing m a with
  | nil => rfl
  | cons w rest ih =>
    simp only [List.length_cons] at h
    simp only [writeAll]
    rw [ih _ (by omega), read_write_of_ne _ _ _ (by omega)]

/-- Writing consecutive bytes in memory: each reads as written. -/
theorem read_writeAll_inside (h : wf cfg m) {a k : Nat} {bytes : List Byte}
    (ha : a + bytes.length ≤ 0x1000) (hk : k < bytes.length) :
    read cfg (writeAll cfg m a bytes) (a + k) = bytes[k] := by
  induction bytes generalizing m a k with
  | nil => simp at hk
  | cons w rest ih =>
    simp only [List.length_cons] at ha hk
    simp only [writeAll]
    cases k with
    | zero =>
      rw [read_writeAll_outside _ _ (by omega)]
      exact read_write_self h a w
    | succ j =>
      rw [show a + (j + 1) = a + 1 + j by omega]
      exact ih (write_wf h (by omega) w) (by omega) (by omega)

end Memory

/-! ## The primitives of 00_scope.md R13: everything they can do -/

theorem inMemory_iff (a n : Nat) : inMemory a n = true ↔ n = 0 ∨ a + n ≤ 0x1000 := by
  simp [inMemory]

theorem memRead_eq {s : State} {a n : Nat} (h : n = 0 ∨ a + n ≤ 0x1000) :
    memRead s a n = .next ((List.range n).map fun k => s.readByte (a + k)) :=
  if_pos ((inMemory_iff a n).mpr h)

theorem memReadWord_eq {s : State} {a : Nat} (h : a ≤ 0xFFE) :
    memReadWord s a = .next (opcodeOf (s.readByte a) (s.readByte (a + 1))) :=
  if_pos ((inMemory_iff a 2).mpr (.inr (by omega)))

theorem memWrite_eq {s : State} {a : Nat} {bytes : List Byte}
    (h : bytes.length = 0 ∨ a + bytes.length ≤ 0x1000) :
    memWrite s a bytes = .next { s with mem := Memory.writeAll s.cfg s.mem a bytes } :=
  if_pos ((inMemory_iff a _).mpr h)

/-- A write that answers a next state has changed the memory and nothing else. -/
theorem memWrite_next {s t : State} {a : Nat} {bytes : List Byte} (h : memWrite s a bytes = .next t) :
    (bytes.length = 0 ∨ a + bytes.length ≤ 0x1000) ∧
      t = { s with mem := Memory.writeAll s.cfg s.mem a bytes } := by
  unfold memWrite at h
  split at h
  · next hm => exact ⟨(inMemory_iff _ _).mp hm, by cases h; rfl⟩
  · cases h

/-- A memory write keeps the canonical form. -/
theorem memWrite_wf {s t : State} {a : Nat} {bytes : List Byte} (hs : Memory.wf s.cfg s.mem)
    (h : memWrite s a bytes = .next t) : Memory.wf t.cfg t.mem := by
  obtain ⟨hl, rfl⟩ := memWrite_next h
  rcases hl with hl | hl
  · rw [List.length_eq_zero_iff] at hl
    subst hl
    exact hs
  · exact Memory.writeAll_wf hs hl

/-- The bound check either goes on or raises MemoryBound (20_memory.md R47). -/
theorem checkRange_cases (s : State) (last : Nat) (ins : Instr) (go : Result) :
    (s.i.toNat + last ≤ 0xFFF ∧ checkRange s last ins go = go) ∨
      (0xFFF < s.i.toNat + last ∧ checkRange s last ins go = raiseFatal .memoryBound ins s) := by
  unfold checkRange State.rangeOk State.effAddr
  by_cases h : s.i.toNat + last ≤ 0xFFF
  · exact .inl ⟨h, by simp [h]⟩
  · exact .inr ⟨by omega, by simp [h]⟩

/-- An operation that goes on with a value answers a next state only when both parts do. -/
theorem thenDo_next {α β : Type} {r : Host.Outcome α Fault Refusal}
    {f : α → Host.Outcome β Fault Refusal} {y : β} (h : thenDo r f = .next y) :
    ∃ x, r = .next x ∧ f x = .next y := by
  cases r with
  | next x => exact ⟨x, rfl, h⟩
  | fault e => cases h
  | refused e => cases h

@[simp] theorem thenDo_of_next {α β : Type} (x : α) (f : α → Host.Outcome β Fault Refusal) :
    thenDo (.next x) f = f x := rfl

/-! ## The stack (10_state.md R26) -/

/-- A push needs room; it writes the next entry and counts it. -/
theorem State.push_cases (s : State) (w : Word) :
    (s.sp = 16 ∧ s.push w = none) ∨
      ∃ h : s.sp.val < 16, s.push w = some
        { s with stack := s.stack.set s.sp.val w, sp := ⟨s.sp.val + 1, by omega⟩ } := by
  unfold State.push
  by_cases h : s.sp.val < 16
  · exact .inr ⟨h, dif_pos h⟩
  · exact .inl ⟨by apply Fin.ext; show s.sp.val = 16; omega, dif_neg h⟩

/-- A pop needs an entry; it uncounts the last one and gives its value. -/
theorem State.pop_cases (s : State) :
    (s.sp = 0 ∧ s.pop = none) ∨
      ∃ (n : Nat) (h : n < 16), s.sp = ⟨n + 1, by omega⟩ ∧
        s.pop = some (s.stack[n], { s with sp := ⟨n, by omega⟩ }) := by
  obtain ⟨v, i, pc, ⟨n, hn⟩⟩ := s
  cases n with
  | zero => exact .inl ⟨rfl, rfl⟩
  | succ n => exact .inr ⟨n, by omega, rfl, rfl⟩

end Sys2Proof.Machine
end

