-- ==== Sys2Proof/Laws/State.lean ====
section
/-! SUPPORT. The named updates of the state, field by field: what each leaves and what it writes. -/

namespace Sys2Proof.Machine

/-! ## One register -/

@[simp] theorem State.setReg_i (s : State) (x : Reg) (b : Byte) : (s.setReg x b).i = s.i := rfl
@[simp] theorem State.setReg_pc (s : State) (x : Reg) (b : Byte) : (s.setReg x b).pc = s.pc := rfl
@[simp] theorem State.setReg_sp (s : State) (x : Reg) (b : Byte) : (s.setReg x b).sp = s.sp := rfl
@[simp] theorem State.setReg_stack (s : State) (x : Reg) (b : Byte) : (s.setReg x b).stack = s.stack := rfl
@[simp] theorem State.setReg_dt (s : State) (x : Reg) (b : Byte) : (s.setReg x b).dt = s.dt := rfl
@[simp] theorem State.setReg_st (s : State) (x : Reg) (b : Byte) : (s.setReg x b).st = s.st := rfl
@[simp] theorem State.setReg_disp (s : State) (x : Reg) (b : Byte) : (s.setReg x b).disp = s.disp := rfl
@[simp] theorem State.setReg_keys (s : State) (x : Reg) (b : Byte) : (s.setReg x b).keys = s.keys := rfl
@[simp] theorem State.setReg_wait (s : State) (x : Reg) (b : Byte) : (s.setReg x b).wait = s.wait := rfl
@[simp] theorem State.setReg_halt (s : State) (x : Reg) (b : Byte) : (s.setReg x b).halt = s.halt := rfl
@[simp] theorem State.setReg_mem (s : State) (x : Reg) (b : Byte) : (s.setReg x b).mem = s.mem := rfl
@[simp] theorem State.setReg_cfg (s : State) (x : Reg) (b : Byte) : (s.setReg x b).cfg = s.cfg := rfl
@[simp] theorem State.setReg_keyIn (s : State) (x : Reg) (b : Byte) : (s.setReg x b).keyIn = s.keyIn := rfl
@[simp] theorem State.setReg_rndIn (s : State) (x : Reg) (b : Byte) : (s.setReg x b).rndIn = s.rndIn := rfl
@[simp] theorem State.setReg_shown (s : State) (x : Reg) (b : Byte) : (s.setReg x b).shown = s.shown := rfl
@[simp] theorem State.setReg_diags (s : State) (x : Reg) (b : Byte) : (s.setReg x b).diags = s.diags := rfl
@[simp] theorem State.setReg_phase (s : State) (x : Reg) (b : Byte) : (s.setReg x b).phase = s.phase := rfl
@[simp] theorem State.setReg_draws (s : State) (x : Reg) (b : Byte) : (s.setReg x b).draws = s.draws := rfl
@[simp] theorem State.setReg_frames (s : State) (x : Reg) (b : Byte) : (s.setReg x b).frames = s.frames := rfl
@[simp] theorem State.setReg_readByte (s : State) (x : Reg) (b : Byte) (a : Nat) : (s.setReg x b).readByte a = s.readByte a := by simp [State.readByte]

theorem State.setReg_reg (s : State) (x r : Reg) (b : Byte) :
    (s.setReg x b).reg r = if x = r then b else s.reg r := by
  simp [State.setReg, State.reg, Vector.getElem_set, Fin.ext_iff]

@[simp] theorem State.setReg_reg_self (s : State) (x : Reg) (b : Byte) : (s.setReg x b).reg x = b := by
  simp [State.setReg_reg]

theorem State.setReg_reg_of_ne (s : State) {x r : Reg} (b : Byte) (h : r ≠ x) :
    (s.setReg x b).reg r = s.reg r := by
  simp [State.setReg_reg, Ne.symm h]

/-- Two states with the same registers have the same register file. -/
theorem State.v_ext {s t : State} (h : ∀ r, t.reg r = s.reg r) : t.v = s.v := by
  apply Vector.ext
  intro k hk
  exact h ⟨k, hk⟩

/-! ## The register and the flag -/

theorem State.setRegAndFlag_eq (s : State) (order : RowOrder) (x : Reg) (b : Byte) (f : Bool) :
    s.setRegAndFlag order x b f = { s with v := (s.setRegAndFlag order x b f).v } := by
  unfold State.setRegAndFlag
  split <;> rfl

@[simp] theorem State.setRegAndFlag_i (s : State) (order : RowOrder) (x : Reg) (b : Byte) (f : Bool) : (s.setRegAndFlag order x b f).i = s.i := by rw [State.setRegAndFlag_eq]
@[simp] theorem State.setRegAndFlag_pc (s : State) (order : RowOrder) (x : Reg) (b : Byte) (f : Bool) : (s.setRegAndFlag order x b f).pc = s.pc := by rw [State.setRegAndFlag_eq]
@[simp] theorem State.setRegAndFlag_sp (s : State) (order : RowOrder) (x : Reg) (b : Byte) (f : Bool) : (s.setRegAndFlag order x b f).sp = s.sp := by rw [State.setRegAndFlag_eq]
@[simp] theorem State.setRegAndFlag_stack (s : State) (order : RowOrder) (x : Reg) (b : Byte) (f : Bool) : (s.setRegAndFlag order x b f).stack = s.stack := by rw [State.setRegAndFlag_eq]
@[simp] theorem State.setRegAndFlag_dt (s : State) (order : RowOrder) (x : Reg) (b : Byte) (f : Bool) : (s.setRegAndFlag order x b f).dt = s.dt := by rw [State.setRegAndFlag_eq]
@[simp] theorem State.setRegAndFlag_st (s : State) (order : RowOrder) (x : Reg) (b : Byte) (f : Bool) : (s.setRegAndFlag order x b f).st = s.st := by rw [State.setRegAndFlag_eq]
@[simp] theorem State.setRegAndFlag_disp (s : State) (order : RowOrder) (x : Reg) (b : Byte) (f : Bool) : (s.setRegAndFlag order x b f).disp = s.disp := by rw [State.setRegAndFlag_eq]
@[simp] theorem State.setRegAndFlag_keys (s : State) (order : RowOrder) (x : Reg) (b : Byte) (f : Bool) : (s.setRegAndFlag order x b f).keys = s.keys := by rw [State.setRegAndFlag_eq]
@[simp] theorem State.setRegAndFlag_wait (s : State) (order : RowOrder) (x : Reg) (b : Byte) (f : Bool) : (s.setRegAndFlag order x b f).wait = s.wait := by rw [State.setRegAndFlag_eq]
@[simp] theorem State.setRegAndFlag_halt (s : State) (order : RowOrder) (x : Reg) (b : Byte) (f : Bool) : (s.setRegAndFlag order x b f).halt = s.halt := by rw [State.setRegAndFlag_eq]
@[simp] theorem State.setRegAndFlag_mem (s : State) (order : RowOrder) (x : Reg) (b : Byte) (f : Bool) : (s.setRegAndFlag order x b f).mem = s.mem := by rw [State.setRegAndFlag_eq]
@[simp] theorem State.setRegAndFlag_cfg (s : State) (order : RowOrder) (x : Reg) (b : Byte) (f : Bool) : (s.setRegAndFlag order x b f).cfg = s.cfg := by rw [State.setRegAndFlag_eq]
@[simp] theorem State.setRegAndFlag_keyIn (s : State) (order : RowOrder) (x : Reg) (b : Byte) (f : Bool) : (s.setRegAndFlag order x b f).keyIn = s.keyIn := by rw [State.setRegAndFlag_eq]
@[simp] theorem State.setRegAndFlag_rndIn (s : State) (order : RowOrder) (x : Reg) (b : Byte) (f : Bool) : (s.setRegAndFlag order x b f).rndIn = s.rndIn := by rw [State.setRegAndFlag_eq]
@[simp] theorem State.setRegAndFlag_shown (s : State) (order : RowOrder) (x : Reg) (b : Byte) (f : Bool) : (s.setRegAndFlag order x b f).shown = s.shown := by rw [State.setRegAndFlag_eq]
@[simp] theorem State.setRegAndFlag_diags (s : State) (order : RowOrder) (x : Reg) (b : Byte) (f : Bool) : (s.setRegAndFlag order x b f).diags = s.diags := by rw [State.setRegAndFlag_eq]
@[simp] theorem State.setRegAndFlag_phase (s : State) (order : RowOrder) (x : Reg) (b : Byte) (f : Bool) : (s.setRegAndFlag order x b f).phase = s.phase := by rw [State.setRegAndFlag_eq]
@[simp] theorem State.setRegAndFlag_draws (s : State) (order : RowOrder) (x : Reg) (b : Byte) (f : Bool) : (s.setRegAndFlag order x b f).draws = s.draws := by rw [State.setRegAndFlag_eq]
@[simp] theorem State.setRegAndFlag_frames (s : State) (order : RowOrder) (x : Reg) (b : Byte) (f : Bool) : (s.setRegAndFlag order x b f).frames = s.frames := by rw [State.setRegAndFlag_eq]
@[simp] theorem State.setRegAndFlag_readByte (s : State) (order : RowOrder) (x : Reg) (b : Byte) (f : Bool) (a : Nat) : (s.setRegAndFlag order x b f).readByte a = s.readByte a := by simp [State.readByte]

/-- `VF` is the later write when the destination is `VF` (42_register_alu.md R133). -/
theorem State.setRegAndFlag_reg (s : State) (order : RowOrder) (x r : Reg) (b : Byte) (f : Bool) :
    (s.setRegAndFlag order x b f).reg r =
      if s.cfg.vfOrder = .tableOrder ∧ order = .flagThenReg then
        (if x = r then b else if r = vf then flagByte f else s.reg r)
      else (if r = vf then flagByte f else if x = r then b else s.reg r) := by
  cases hv : s.cfg.vfOrder <;> cases order <;>
    simp [State.setRegAndFlag, hv, State.setReg_reg, eq_comm]

/-! ## Several registers -/

theorem State.setRegs_eq (s : State) (k : Nat) (bytes : List Byte) :
    s.setRegs k bytes = { s with v := (s.setRegs k bytes).v } := by
  induction bytes generalizing s k with
  | nil => rfl
  | cons b rest ih =>
    simp only [State.setRegs]
    rw [ih]
    split <;> rfl

@[simp] theorem State.setRegs_i (s : State) (k : Nat) (bytes : List Byte) : (s.setRegs k bytes).i = s.i := by rw [State.setRegs_eq]
@[simp] theorem State.setRegs_pc (s : State) (k : Nat) (bytes : List Byte) : (s.setRegs k bytes).pc = s.pc := by rw [State.setRegs_eq]
@[simp] theorem State.setRegs_sp (s : State) (k : Nat) (bytes : List Byte) : (s.setRegs k bytes).sp = s.sp := by rw [State.setRegs_eq]
@[simp] theorem State.setRegs_stack (s : State) (k : Nat) (bytes : List Byte) : (s.setRegs k bytes).stack = s.stack := by rw [State.setRegs_eq]
@[simp] theorem State.setRegs_dt (s : State) (k : Nat) (bytes : List Byte) : (s.setRegs k bytes).dt = s.dt := by rw [State.setRegs_eq]
@[simp] theorem State.setRegs_st (s : State) (k : Nat) (bytes : List Byte) : (s.setRegs k bytes).st = s.st := by rw [State.setRegs_eq]
@[simp] theorem State.setRegs_disp (s : State) (k : Nat) (bytes : List Byte) : (s.setRegs k bytes).disp = s.disp := by rw [State.setRegs_eq]
@[simp] theorem State.setRegs_keys (s : State) (k : Nat) (bytes : List Byte) : (s.setRegs k bytes).keys = s.keys := by rw [State.setRegs_eq]
@[simp] theorem State.setRegs_wait (s : State) (k : Nat) (bytes : List Byte) : (s.setRegs k bytes).wait = s.wait := by rw [State.setRegs_eq]
@[simp] theorem State.setRegs_halt (s : State) (k : Nat) (bytes : List Byte) : (s.setRegs k bytes).halt = s.halt := by rw [State.setRegs_eq]
@[simp] theorem State.setRegs_mem (s : State) (k : Nat) (bytes : List Byte) : (s.setRegs k bytes).mem = s.mem := by rw [State.setRegs_eq]
@[simp] theorem State.setRegs_cfg (s : State) (k : Nat) (bytes : List Byte) : (s.setRegs k bytes).cfg = s.cfg := by rw [State.setRegs_eq]
@[simp] theorem State.setRegs_keyIn (s : State) (k : Nat) (bytes : List Byte) : (s.setRegs k bytes).keyIn = s.keyIn := by rw [State.setRegs_eq]
@[simp] theorem State.setRegs_rndIn (s : State) (k : Nat) (bytes : List Byte) : (s.setRegs k bytes).rndIn = s.rndIn := by rw [State.setRegs_eq]
@[simp] theorem State.setRegs_shown (s : State) (k : Nat) (bytes : List Byte) : (s.setRegs k bytes).shown = s.shown := by rw [State.setRegs_eq]
@[simp] theorem State.setRegs_diags (s : State) (k : Nat) (bytes : List Byte) : (s.setRegs k bytes).diags = s.diags := by rw [State.setRegs_eq]
@[simp] theorem State.setRegs_phase (s : State) (k : Nat) (bytes : List Byte) : (s.setRegs k bytes).phase = s.phase := by rw [State.setRegs_eq]
@[simp] theorem State.setRegs_draws (s : State) (k : Nat) (bytes : List Byte) : (s.setRegs k bytes).draws = s.draws := by rw [State.setRegs_eq]
@[simp] theorem State.setRegs_frames (s : State) (k : Nat) (bytes : List Byte) : (s.setRegs k bytes).frames = s.frames := by rw [State.setRegs_eq]
@[simp] theorem State.setRegs_readByte (s : State) (k : Nat) (bytes : List Byte) (a : Nat) : (s.setRegs k bytes).readByte a = s.readByte a := by simp [State.readByte]

/-- `setRegs` writes register `k + j` with byte `j` and no other register. -/
theorem State.setRegs_reg (s : State) (k : Nat) (bytes : List Byte) (r : Reg) :
    (s.setRegs k bytes).reg r =
      if k ≤ r.val then bytes.getD (r.val - k) (s.reg r) else s.reg r := by
  induction bytes generalizing s k with
  | nil => simp [State.setRegs]
  | cons b rest ih =>
    simp only [State.setRegs, ih]
    rcases Nat.lt_trichotomy k r.val with h | h | h
    · have h1 : r.val - k = r.val - (k + 1) + 1 := by omega
      rw [if_pos (by omega), if_pos (by omega), h1, List.getD_cons_succ]
      split
      · rw [State.setReg_reg_of_ne]
        intro e
        simp [Fin.ext_iff] at e
        omega
      · rfl
    · subst h
      simp
    · rw [if_neg (by omega), if_neg (by omega)]
      split
      · rw [State.setReg_reg_of_ne]
        intro e
        simp [Fin.ext_iff] at e
        omega
      · rfl

/-! ## The fatal error -/

@[simp] theorem State.takeFatal_v (s : State) (c : FatalCause) (p : Word) (op : Option Word) : (s.takeFatal c p op).v = s.v := rfl
@[simp] theorem State.takeFatal_i (s : State) (c : FatalCause) (p : Word) (op : Option Word) : (s.takeFatal c p op).i = s.i := rfl
@[simp] theorem State.takeFatal_sp (s : State) (c : FatalCause) (p : Word) (op : Option Word) : (s.takeFatal c p op).sp = s.sp := rfl
@[simp] theorem State.takeFatal_stack (s : State) (c : FatalCause) (p : Word) (op : Option Word) : (s.takeFatal c p op).stack = s.stack := rfl
@[simp] theorem State.takeFatal_dt (s : State) (c : FatalCause) (p : Word) (op : Option Word) : (s.takeFatal c p op).dt = s.dt := rfl
@[simp] theorem State.takeFatal_st (s : State) (c : FatalCause) (p : Word) (op : Option Word) : (s.takeFatal c p op).st = s.st := rfl
@[simp] theorem State.takeFatal_disp (s : State) (c : FatalCause) (p : Word) (op : Option Word) : (s.takeFatal c p op).disp = s.disp := rfl
@[simp] theorem State.takeFatal_keys (s : State) (c : FatalCause) (p : Word) (op : Option Word) : (s.takeFatal c p op).keys = s.keys := rfl
@[simp] theorem State.takeFatal_wait (s : State) (c : FatalCause) (p : Word) (op : Option Word) : (s.takeFatal c p op).wait = s.wait := rfl
@[simp] theorem State.takeFatal_mem (s : State) (c : FatalCause) (p : Word) (op : Option Word) : (s.takeFatal c p op).mem = s.mem := rfl
@[simp] theorem State.takeFatal_cfg (s : State) (c : FatalCause) (p : Word) (op : Option Word) : (s.takeFatal c p op).cfg = s.cfg := rfl
@[simp] theorem State.takeFatal_keyIn (s : State) (c : FatalCause) (p : Word) (op : Option Word) : (s.takeFatal c p op).keyIn = s.keyIn := rfl
@[simp] theorem State.takeFatal_rndIn (s : State) (c : FatalCause) (p : Word) (op : Option Word) : (s.takeFatal c p op).rndIn = s.rndIn := rfl
@[simp] theorem State.takeFatal_shown (s : State) (c : FatalCause) (p : Word) (op : Option Word) : (s.takeFatal c p op).shown = s.shown := rfl
@[simp] theorem State.takeFatal_diags (s : State) (c : FatalCause) (p : Word) (op : Option Word) : (s.takeFatal c p op).diags = s.diags := rfl
@[simp] theorem State.takeFatal_phase (s : State) (c : FatalCause) (p : Word) (op : Option Word) : (s.takeFatal c p op).phase = s.phase := rfl
@[simp] theorem State.takeFatal_draws (s : State) (c : FatalCause) (p : Word) (op : Option Word) : (s.takeFatal c p op).draws = s.draws := rfl
@[simp] theorem State.takeFatal_frames (s : State) (c : FatalCause) (p : Word) (op : Option Word) : (s.takeFatal c p op).frames = s.frames := rfl
@[simp] theorem State.takeFatal_pc (s : State) (c : FatalCause) (p : Word) (op : Option Word) : (s.takeFatal c p op).pc = p := rfl
@[simp] theorem State.takeFatal_halt (s : State) (c : FatalCause) (p : Word) (op : Option Word) : (s.takeFatal c p op).halt = some ⟨c, p, op⟩ := rfl
@[simp] theorem State.takeFatal_reg (s : State) (c : FatalCause) (p : Word) (op : Option Word) (r : Reg) : (s.takeFatal c p op).reg r = s.reg r := by simp [State.reg]
@[simp] theorem State.takeFatal_readByte (s : State) (c : FatalCause) (p : Word) (op : Option Word) (a : Nat) : (s.takeFatal c p op).readByte a = s.readByte a := by simp [State.readByte]

/-! ## The ports -/

@[simp] theorem State.emit_v (s : State) (d : Diag) : (s.emit d).v = s.v := rfl
@[simp] theorem State.emit_i (s : State) (d : Diag) : (s.emit d).i = s.i := rfl
@[simp] theorem State.emit_pc (s : State) (d : Diag) : (s.emit d).pc = s.pc := rfl
@[simp] theorem State.emit_sp (s : State) (d : Diag) : (s.emit d).sp = s.sp := rfl
@[simp] theorem State.emit_stack (s : State) (d : Diag) : (s.emit d).stack = s.stack := rfl
@[simp] theorem State.emit_dt (s : State) (d : Diag) : (s.emit d).dt = s.dt := rfl
@[simp] theorem State.emit_st (s : State) (d : Diag) : (s.emit d).st = s.st := rfl
@[simp] theorem State.emit_disp (s : State) (d : Diag) : (s.emit d).disp = s.disp := rfl
@[simp] theorem State.emit_keys (s : State) (d : Diag) : (s.emit d).keys = s.keys := rfl
@[simp] theorem State.emit_wait (s : State) (d : Diag) : (s.emit d).wait = s.wait := rfl
@[simp] theorem State.emit_halt (s : State) (d : Diag) : (s.emit d).halt = s.halt := rfl
@[simp] theorem State.emit_mem (s : State) (d : Diag) : (s.emit d).mem = s.mem := rfl
@[simp] theorem State.emit_cfg (s : State) (d : Diag) : (s.emit d).cfg = s.cfg := rfl
@[simp] theorem State.emit_keyIn (s : State) (d : Diag) : (s.emit d).keyIn = s.keyIn := rfl
@[simp] theorem State.emit_rndIn (s : State) (d : Diag) : (s.emit d).rndIn = s.rndIn := rfl
@[simp] theorem State.emit_shown (s : State) (d : Diag) : (s.emit d).shown = s.shown := rfl
@[simp] theorem State.emit_phase (s : State) (d : Diag) : (s.emit d).phase = s.phase := rfl
@[simp] theorem State.emit_draws (s : State) (d : Diag) : (s.emit d).draws = s.draws := rfl
@[simp] theorem State.emit_frames (s : State) (d : Diag) : (s.emit d).frames = s.frames := rfl
@[simp] theorem State.emit_diags (s : State) (d : Diag) : (s.emit d).diags = s.diags ++ [d] := rfl
@[simp] theorem State.emit_reg (s : State) (d : Diag) (r : Reg) : (s.emit d).reg r = s.reg r := by simp [State.reg]
@[simp] theorem State.emit_readByte (s : State) (d : Diag) (a : Nat) : (s.emit d).readByte a = s.readByte a := by simp [State.readByte]

@[simp] theorem State.afterDraw_v (s : State) : (s.afterDraw).v = s.v := rfl
@[simp] theorem State.afterDraw_i (s : State) : (s.afterDraw).i = s.i := rfl
@[simp] theorem State.afterDraw_pc (s : State) : (s.afterDraw).pc = s.pc := rfl
@[simp] theorem State.afterDraw_sp (s : State) : (s.afterDraw).sp = s.sp := rfl
@[simp] theorem State.afterDraw_stack (s : State) : (s.afterDraw).stack = s.stack := rfl
@[simp] theorem State.afterDraw_dt (s : State) : (s.afterDraw).dt = s.dt := rfl
@[simp] theorem State.afterDraw_st (s : State) : (s.afterDraw).st = s.st := rfl
@[simp] theorem State.afterDraw_disp (s : State) : (s.afterDraw).disp = s.disp := rfl
@[simp] theorem State.afterDraw_keys (s : State) : (s.afterDraw).keys = s.keys := rfl
@[simp] theorem State.afterDraw_wait (s : State) : (s.afterDraw).wait = s.wait := rfl
@[simp] theorem State.afterDraw_halt (s : State) : (s.afterDraw).halt = s.halt := rfl
@[simp] theorem State.afterDraw_mem (s : State) : (s.afterDraw).mem = s.mem := rfl
@[simp] theorem State.afterDraw_cfg (s : State) : (s.afterDraw).cfg = s.cfg := rfl
@[simp] theorem State.afterDraw_keyIn (s : State) : (s.afterDraw).keyIn = s.keyIn := rfl
@[simp] theorem State.afterDraw_shown (s : State) : (s.afterDraw).shown = s.shown := rfl
@[simp] theorem State.afterDraw_diags (s : State) : (s.afterDraw).diags = s.diags := rfl
@[simp] theorem State.afterDraw_phase (s : State) : (s.afterDraw).phase = s.phase := rfl
@[simp] theorem State.afterDraw_frames (s : State) : (s.afterDraw).frames = s.frames := rfl
@[simp] theorem State.afterDraw_rndIn (s : State) : (s.afterDraw).rndIn = s.rndIn.tail := rfl
@[simp] theorem State.afterDraw_draws (s : State) : (s.afterDraw).draws = s.draws + 1 := rfl
@[simp] theorem State.afterDraw_reg (s : State) (r : Reg) : (s.afterDraw).reg r = s.reg r := by simp [State.reg]
@[simp] theorem State.afterDraw_readByte (s : State) (a : Nat) : (s.afterDraw).readByte a = s.readByte a := by simp [State.readByte]

/-! ## The skip -/

@[simp] theorem State.skipIf_v (s : State) (c : Bool) : (s.skipIf c).v = s.v := by unfold State.skipIf; split <;> rfl
@[simp] theorem State.skipIf_i (s : State) (c : Bool) : (s.skipIf c).i = s.i := by unfold State.skipIf; split <;> rfl
@[simp] theorem State.skipIf_sp (s : State) (c : Bool) : (s.skipIf c).sp = s.sp := by unfold State.skipIf; split <;> rfl
@[simp] theorem State.skipIf_stack (s : State) (c : Bool) : (s.skipIf c).stack = s.stack := by unfold State.skipIf; split <;> rfl
@[simp] theorem State.skipIf_dt (s : State) (c : Bool) : (s.skipIf c).dt = s.dt := by unfold State.skipIf; split <;> rfl
@[simp] theorem State.skipIf_st (s : State) (c : Bool) : (s.skipIf c).st = s.st := by unfold State.skipIf; split <;> rfl
@[simp] theorem State.skipIf_disp (s : State) (c : Bool) : (s.skipIf c).disp = s.disp := by unfold State.skipIf; split <;> rfl
@[simp] theorem State.skipIf_keys (s : State) (c : Bool) : (s.skipIf c).keys = s.keys := by unfold State.skipIf; split <;> rfl
@[simp] theorem State.skipIf_wait (s : State) (c : Bool) : (s.skipIf c).wait = s.wait := by unfold State.skipIf; split <;> rfl
@[simp] theorem State.skipIf_halt (s : State) (c : Bool) : (s.skipIf c).halt = s.halt := by unfold State.skipIf; split <;> rfl
@[simp] theorem State.skipIf_mem (s : State) (c : Bool) : (s.skipIf c).mem = s.mem := by unfold State.skipIf; split <;> rfl
@[simp] theorem State.skipIf_cfg (s : State) (c : Bool) : (s.skipIf c).cfg = s.cfg := by unfold State.skipIf; split <;> rfl
@[simp] theorem State.skipIf_keyIn (s : State) (c : Bool) : (s.skipIf c).keyIn = s.keyIn := by unfold State.skipIf; split <;> rfl
@[simp] theorem State.skipIf_rndIn (s : State) (c : Bool) : (s.skipIf c).rndIn = s.rndIn := by unfold State.skipIf; split <;> rfl
@[simp] theorem State.skipIf_shown (s : State) (c : Bool) : (s.skipIf c).shown = s.shown := by unfold State.skipIf; split <;> rfl
@[simp] theorem State.skipIf_diags (s : State) (c : Bool) : (s.skipIf c).diags = s.diags := by unfold State.skipIf; split <;> rfl
@[simp] theorem State.skipIf_phase (s : State) (c : Bool) : (s.skipIf c).phase = s.phase := by unfold State.skipIf; split <;> rfl
@[simp] theorem State.skipIf_draws (s : State) (c : Bool) : (s.skipIf c).draws = s.draws := by unfold State.skipIf; split <;> rfl
@[simp] theorem State.skipIf_frames (s : State) (c : Bool) : (s.skipIf c).frames = s.frames := by unfold State.skipIf; split <;> rfl
@[simp] theorem State.skipIf_pc (s : State) (c : Bool) : (s.skipIf c).pc = if c then s.pc + 2 else s.pc := by unfold State.skipIf; split <;> rfl
@[simp] theorem State.skipIf_reg (s : State) (c : Bool) (r : Reg) : (s.skipIf c).reg r = s.reg r := by simp [State.reg]
@[simp] theorem State.skipIf_readByte (s : State) (c : Bool) (a : Nat) : (s.skipIf c).readByte a = s.readByte a := by simp [State.readByte]

/-! ## The draw -/

@[simp] theorem State.draw_i (s : State) (x y : Reg) (bytes : List Byte) : (s.draw x y bytes).i = s.i := rfl
@[simp] theorem State.draw_pc (s : State) (x y : Reg) (bytes : List Byte) : (s.draw x y bytes).pc = s.pc := rfl
@[simp] theorem State.draw_sp (s : State) (x y : Reg) (bytes : List Byte) : (s.draw x y bytes).sp = s.sp := rfl
@[simp] theorem State.draw_stack (s : State) (x y : Reg) (bytes : List Byte) : (s.draw x y bytes).stack = s.stack := rfl
@[simp] theorem State.draw_dt (s : State) (x y : Reg) (bytes : List Byte) : (s.draw x y bytes).dt = s.dt := rfl
@[simp] theorem State.draw_st (s : State) (x y : Reg) (bytes : List Byte) : (s.draw x y bytes).st = s.st := rfl
@[simp] theorem State.draw_keys (s : State) (x y : Reg) (bytes : List Byte) : (s.draw x y bytes).keys = s.keys := rfl
@[simp] theorem State.draw_wait (s : State) (x y : Reg) (bytes : List Byte) : (s.draw x y bytes).wait = s.wait := rfl
@[simp] theorem State.draw_halt (s : State) (x y : Reg) (bytes : List Byte) : (s.draw x y bytes).halt = s.halt := rfl
@[simp] theorem State.draw_mem (s : State) (x y : Reg) (bytes : List Byte) : (s.draw x y bytes).mem = s.mem := rfl
@[simp] theorem State.draw_cfg (s : State) (x y : Reg) (bytes : List Byte) : (s.draw x y bytes).cfg = s.cfg := rfl
@[simp] theorem State.draw_keyIn (s : State) (x y : Reg) (bytes : List Byte) : (s.draw x y bytes).keyIn = s.keyIn := rfl
@[simp] theorem State.draw_rndIn (s : State) (x y : Reg) (bytes : List Byte) : (s.draw x y bytes).rndIn = s.rndIn := rfl
@[simp] theorem State.draw_shown (s : State) (x y : Reg) (bytes : List Byte) : (s.draw x y bytes).shown = s.shown := rfl
@[simp] theorem State.draw_diags (s : State) (x y : Reg) (bytes : List Byte) : (s.draw x y bytes).diags = s.diags := rfl
@[simp] theorem State.draw_phase (s : State) (x y : Reg) (bytes : List Byte) : (s.draw x y bytes).phase = s.phase := rfl
@[simp] theorem State.draw_draws (s : State) (x y : Reg) (bytes : List Byte) : (s.draw x y bytes).draws = s.draws := rfl
@[simp] theorem State.draw_frames (s : State) (x y : Reg) (bytes : List Byte) : (s.draw x y bytes).frames = s.frames := rfl
@[simp] theorem State.draw_disp (s : State) (x y : Reg) (bytes : List Byte) : (s.draw x y bytes).disp = (drawBytes (s.reg x) (s.reg y) 0 bytes ⟨s.disp, false⟩).disp := rfl
@[simp] theorem State.draw_readByte (s : State) (x y : Reg) (bytes : List Byte) (a : Nat) : (s.draw x y bytes).readByte a = s.readByte a := by simp [State.readByte]

theorem State.draw_reg (s : State) (x y r : Reg) (bytes : List Byte) :
    (s.draw x y bytes).reg r =
      if r = vf then flagByte (drawBytes (s.reg x) (s.reg y) 0 bytes ⟨s.disp, false⟩).hit else s.reg r := by
  simp only [State.draw, State.setReg_reg]
  by_cases h : r = vf
  · simp [h]
  · simp [h, Ne.symm h, State.reg]

end Sys2Proof.Machine
end

