-- ==== Sys2Proof/Laws/Exec.lean ====
section
/-! SUPPORT. What the meanings with a fatal condition can do: each either raises its fatal error on its condition
or has its effect. -/

namespace Sys2Proof.Machine

/-- 2NNN: StackOverflow on a full stack, else the push and the jump (41_control_flow.md R102). -/
theorem execCall_cases (nnn : BitVec 12) (s : State) :
    (s.sp = 16 ∧ execCall nnn s = raiseFatal .stackOverflow (.call nnn) s) ∨
      ∃ h : s.sp.val < 16, execCall nnn s = .next
        { s with stack := s.stack.set s.sp.val s.pc, sp := ⟨s.sp.val + 1, by omega⟩, pc := zext16 nnn } := by
  unfold execCall
  rcases s.push_cases s.pc with ⟨h, e⟩ | ⟨h, e⟩
  · exact .inl ⟨h, by rw [e]⟩
  · exact .inr ⟨h, by rw [e]⟩

/-- 00EE: StackUnderflow on an empty stack, else the pop into `PC` (41_control_flow.md R100). -/
theorem execRet_cases (mid : BitVec 8) (s : State) :
    (s.sp = 0 ∧ execRet mid s = raiseFatal .stackUnderflow (.ret mid) s) ∨
      ∃ (n : Nat) (h : n < 16), s.sp = ⟨n + 1, by omega⟩ ∧
        execRet mid s = .next { s with sp := ⟨n, by omega⟩, pc := s.stack[n] } := by
  unfold execRet
  rcases s.pop_cases with ⟨h, e⟩ | ⟨n, h, hs, e⟩
  · exact .inl ⟨h, by rw [e]⟩
  · exact .inr ⟨n, h, hs, by rw [e]⟩

@[simp] theorem bcdDigits_length (b : Byte) : (bcdDigits b).length = 3 := rfl

@[simp] theorem State.regsTo_length (s : State) (x : Reg) : (s.regsTo x).length = x.val + 1 := by
  simp [State.regsTo]

/-- `regsTo` lists the registers in order. -/
theorem State.regsTo_getElem (s : State) (x : Reg) (k : Nat) (h : k < (s.regsTo x).length) :
    (s.regsTo x)[k] = s.reg ⟨k, by simp at h; omega⟩ := by
  simp [State.regsTo, State.reg]

/-- FX33: MemoryBound past 0xFFF, else the three digits are stored (43_index_memory.md R143). -/
theorem execLdB_cases (x : Reg) (s : State) :
    (0xFFF < s.effAddr 2 ∧ execLdB x s = raiseFatal .memoryBound (.ldB x) s) ∨
      (s.effAddr 2 ≤ 0xFFF ∧ execLdB x s = .next
        { s with mem := Memory.writeAll s.cfg s.mem (s.effAddr 0) (bcdDigits (s.reg x)) }) := by
  unfold execLdB
  rcases checkRange_cases s 2 (.ldB x) (memWrite s (s.effAddr 0) (bcdDigits (s.reg x))) with
    ⟨h, e⟩ | ⟨h, e⟩
  · refine .inr ⟨h, ?_⟩
    rw [e, memWrite_eq (.inr ?_)]
    simp only [State.effAddr, bcdDigits_length]
    omega
  · exact .inl ⟨h, e⟩

/-- FX55: MemoryBound past 0xFFF, else `V0` to `Vx` are stored (43_index_memory.md R144). -/
theorem execLdMemVx_cases (x : Reg) (s : State) :
    (0xFFF < s.effAddr x.val ∧ execLdMemVx x s = raiseFatal .memoryBound (.ldMemVx x) s) ∨
      (s.effAddr x.val ≤ 0xFFF ∧ execLdMemVx x s = .next
        { s with mem := Memory.writeAll s.cfg s.mem (s.effAddr 0) (s.regsTo x) }) := by
  unfold execLdMemVx
  rcases checkRange_cases s x.val (.ldMemVx x) (memWrite s (s.effAddr 0) (s.regsTo x)) with
    ⟨h, e⟩ | ⟨h, e⟩
  · refine .inr ⟨h, ?_⟩
    rw [e, memWrite_eq (.inr ?_)]
    simp only [State.effAddr, State.regsTo_length]
    omega
  · exact .inl ⟨h, e⟩

/-- FX65: MemoryBound past 0xFFF, else `V0` to `Vx` are loaded (43_index_memory.md R145). -/
theorem execLdVxMem_cases (x : Reg) (s : State) :
    (0xFFF < s.effAddr x.val ∧ execLdVxMem x s = raiseFatal .memoryBound (.ldVxMem x) s) ∨
      (s.effAddr x.val ≤ 0xFFF ∧ execLdVxMem x s = .next
        (s.setRegs 0 ((List.range (x.val + 1)).map fun k => s.readByte (s.effAddr 0 + k)))) := by
  unfold execLdVxMem
  rcases checkRange_cases s x.val (.ldVxMem x)
    (thenDo (memRead s (s.effAddr 0) (x.val + 1)) fun bytes => .next (s.setRegs 0 bytes)) with
    ⟨h, e⟩ | ⟨h, e⟩
  · refine .inr ⟨h, ?_⟩
    rw [e, memRead_eq (.inr ?_), thenDo_of_next]
    simp only [State.effAddr]
    omega
  · exact .inl ⟨h, e⟩

/-- DXYN: MemoryBound for a sprite past 0xFFF, else the draw of its bytes; no byte, no check when `N = 0`
(44_display.md R161). -/
theorem execDrw_cases (x y : Reg) (n : BitVec 4) (s : State) :
    (n ≠ 0 ∧ 0xFFF < s.effAddr (n.toNat - 1) ∧
      execDrw x y n s = raiseFatal .memoryBound (.drw x y n) s) ∨
      ((n = 0 ∨ s.effAddr (n.toNat - 1) ≤ 0xFFF) ∧ execDrw x y n s = .next
        (s.draw x y ((List.range n.toNat).map fun k => s.readByte (s.effAddr 0 + k)))) := by
  unfold execDrw
  by_cases hn : n = 0
  · refine .inr ⟨.inl hn, ?_⟩
    subst hn
    simp [memRead_eq]
  · have hp : n.toNat ≠ 0 := fun h => hn (BitVec.eq_of_toNat_eq h)
    simp only [if_neg hn]
    rcases checkRange_cases s (n.toNat - 1) (.drw x y n)
      (thenDo (memRead s (s.effAddr 0) n.toNat) fun bytes => .next (s.draw x y bytes)) with
      ⟨h, e⟩ | ⟨h, e⟩
    · refine .inr ⟨.inr h, ?_⟩
      rw [e, memRead_eq (.inr ?_), thenDo_of_next]
      simp only [State.effAddr]
      omega
    · exact .inl ⟨hn, h, e⟩

/-- No instruction touches the configuration, `KEYS`, the input port of key events, the frame's outputs or the
piece of the frame (10_state.md R30, R37, 40_cycle.md R96). -/
theorem exec_keeps_frame {i : Instr} {s t : State} (h : exec i s = .next t) :
    t.cfg = s.cfg ∧ t.keys = s.keys ∧ t.keyIn = s.keyIn ∧ t.frames = s.frames ∧ t.shown = s.shown ∧
      t.phase = s.phase := by
  cases i with
  | ret mid =>
    rcases execRet_cases mid s with ⟨-, e⟩ | ⟨n, hn, -, e⟩ <;>
      (rw [show exec (.ret mid) s = execRet mid s from rfl, e] at h; cases h; simp)
  | call nnn =>
    rcases execCall_cases nnn s with ⟨_, e⟩ | ⟨_, e⟩ <;>
      (rw [show exec (.call nnn) s = execCall nnn s from rfl, e] at h; cases h; simp)
  | drw x y n =>
    rcases execDrw_cases x y n s with ⟨-, -, e⟩ | ⟨-, e⟩ <;>
      (rw [show exec (.drw x y n) s = execDrw x y n s from rfl, e] at h; cases h; simp)
  | ldB x =>
    rcases execLdB_cases x s with ⟨-, e⟩ | ⟨-, e⟩ <;>
      (rw [show exec (.ldB x) s = execLdB x s from rfl, e] at h; cases h; simp)
  | ldMemVx x =>
    rcases execLdMemVx_cases x s with ⟨-, e⟩ | ⟨-, e⟩ <;>
      (rw [show exec (.ldMemVx x) s = execLdMemVx x s from rfl, e] at h; cases h; simp)
  | ldVxMem x =>
    rcases execLdVxMem_cases x s with ⟨-, e⟩ | ⟨-, e⟩ <;>
      (rw [show exec (.ldVxMem x) s = execLdVxMem x s from rfl, e] at h; cases h; simp)
  | _ => cases h; simp

end Sys2Proof.Machine
end

