-- ==== Sys2Proof/Laws/Frame.lean ====
section
/-! SUPPORT. The named updates of the cycle and the frame, field by field, and what a cycle and a step can do. -/

namespace Sys2Proof.Machine

/-! ## The cycle -/

@[simp] theorem State.advance_v (s : State) : (s.advance).v = s.v := rfl
@[simp] theorem State.advance_i (s : State) : (s.advance).i = s.i := rfl
@[simp] theorem State.advance_sp (s : State) : (s.advance).sp = s.sp := rfl
@[simp] theorem State.advance_stack (s : State) : (s.advance).stack = s.stack := rfl
@[simp] theorem State.advance_dt (s : State) : (s.advance).dt = s.dt := rfl
@[simp] theorem State.advance_st (s : State) : (s.advance).st = s.st := rfl
@[simp] theorem State.advance_disp (s : State) : (s.advance).disp = s.disp := rfl
@[simp] theorem State.advance_keys (s : State) : (s.advance).keys = s.keys := rfl
@[simp] theorem State.advance_wait (s : State) : (s.advance).wait = s.wait := rfl
@[simp] theorem State.advance_halt (s : State) : (s.advance).halt = s.halt := rfl
@[simp] theorem State.advance_mem (s : State) : (s.advance).mem = s.mem := rfl
@[simp] theorem State.advance_cfg (s : State) : (s.advance).cfg = s.cfg := rfl
@[simp] theorem State.advance_keyIn (s : State) : (s.advance).keyIn = s.keyIn := rfl
@[simp] theorem State.advance_rndIn (s : State) : (s.advance).rndIn = s.rndIn := rfl
@[simp] theorem State.advance_shown (s : State) : (s.advance).shown = s.shown := rfl
@[simp] theorem State.advance_diags (s : State) : (s.advance).diags = s.diags := rfl
@[simp] theorem State.advance_phase (s : State) : (s.advance).phase = s.phase := rfl
@[simp] theorem State.advance_draws (s : State) : (s.advance).draws = s.draws := rfl
@[simp] theorem State.advance_frames (s : State) : (s.advance).frames = s.frames := rfl
@[simp] theorem State.advance_pc (s : State) : (s.advance).pc = s.pc + 2 := rfl
@[simp] theorem State.advance_reg (s : State) (r : Reg) : (s.advance).reg r = s.reg r := by simp [State.reg]
@[simp] theorem State.advance_readByte (s : State) (a : Nat) : (s.advance).readByte a = s.readByte a := by simp [State.readByte]

/-- The bound check, case by case (40_cycle.md R82, R83). -/
theorem State.checkPc_cases (s : State) :
    (s.pc.toNat ≤ 0xFFE ∧ s.checkPc = s) ∨
    (0xFFE < s.pc.toNat ∧ s.cfg.pcPolicy = .reset ∧
      s.checkPc = { s with pc := romBase, diags := s.diags ++ [.pcReset s.pc] }) ∨
    (0xFFE < s.pc.toNat ∧ s.cfg.pcPolicy = .fatal ∧
      s.checkPc = { s with halt := some ⟨.pcOutOfRange, s.pc, none⟩ }) := by
  unfold State.checkPc State.pcInBounds
  by_cases h : s.pc.toNat ≤ 0xFFE
  · exact .inl ⟨h, by simp [h]⟩
  · cases hp : s.cfg.pcPolicy
    · exact .inr (.inl ⟨by omega, rfl, by simp [h, State.emit]⟩)
    · exact .inr (.inr ⟨by omega, rfl, by simp [h, State.takeFatal]⟩)

@[simp] theorem State.checkPc_v (s : State) : (s.checkPc).v = s.v := by unfold State.checkPc; split <;> [rfl; (split <;> rfl)]
@[simp] theorem State.checkPc_i (s : State) : (s.checkPc).i = s.i := by unfold State.checkPc; split <;> [rfl; (split <;> rfl)]
@[simp] theorem State.checkPc_sp (s : State) : (s.checkPc).sp = s.sp := by unfold State.checkPc; split <;> [rfl; (split <;> rfl)]
@[simp] theorem State.checkPc_stack (s : State) : (s.checkPc).stack = s.stack := by unfold State.checkPc; split <;> [rfl; (split <;> rfl)]
@[simp] theorem State.checkPc_dt (s : State) : (s.checkPc).dt = s.dt := by unfold State.checkPc; split <;> [rfl; (split <;> rfl)]
@[simp] theorem State.checkPc_st (s : State) : (s.checkPc).st = s.st := by unfold State.checkPc; split <;> [rfl; (split <;> rfl)]
@[simp] theorem State.checkPc_disp (s : State) : (s.checkPc).disp = s.disp := by unfold State.checkPc; split <;> [rfl; (split <;> rfl)]
@[simp] theorem State.checkPc_keys (s : State) : (s.checkPc).keys = s.keys := by unfold State.checkPc; split <;> [rfl; (split <;> rfl)]
@[simp] theorem State.checkPc_wait (s : State) : (s.checkPc).wait = s.wait := by unfold State.checkPc; split <;> [rfl; (split <;> rfl)]
@[simp] theorem State.checkPc_mem (s : State) : (s.checkPc).mem = s.mem := by unfold State.checkPc; split <;> [rfl; (split <;> rfl)]
@[simp] theorem State.checkPc_cfg (s : State) : (s.checkPc).cfg = s.cfg := by unfold State.checkPc; split <;> [rfl; (split <;> rfl)]
@[simp] theorem State.checkPc_keyIn (s : State) : (s.checkPc).keyIn = s.keyIn := by unfold State.checkPc; split <;> [rfl; (split <;> rfl)]
@[simp] theorem State.checkPc_rndIn (s : State) : (s.checkPc).rndIn = s.rndIn := by unfold State.checkPc; split <;> [rfl; (split <;> rfl)]
@[simp] theorem State.checkPc_shown (s : State) : (s.checkPc).shown = s.shown := by unfold State.checkPc; split <;> [rfl; (split <;> rfl)]
@[simp] theorem State.checkPc_phase (s : State) : (s.checkPc).phase = s.phase := by unfold State.checkPc; split <;> [rfl; (split <;> rfl)]
@[simp] theorem State.checkPc_draws (s : State) : (s.checkPc).draws = s.draws := by unfold State.checkPc; split <;> [rfl; (split <;> rfl)]
@[simp] theorem State.checkPc_frames (s : State) : (s.checkPc).frames = s.frames := by unfold State.checkPc; split <;> [rfl; (split <;> rfl)]
@[simp] theorem State.checkPc_reg (s : State) (r : Reg) : (s.checkPc).reg r = s.reg r := by simp [State.reg]
@[simp] theorem State.checkPc_readByte (s : State) (a : Nat) : (s.checkPc).readByte a = s.readByte a := by simp [State.readByte]

/-- What a cycle does: nothing when halted or WAITING; the halt of the bound check; else one instruction at an
address in memory (40_cycle.md R80, R88). -/
theorem cycle_cases (s : State) :
    (s.halt.isSome ∧ cycle s = .next s) ∨
    (s.halt = none ∧ s.wait.isSome ∧ cycle s = .next s) ∨
    (s.halt = none ∧ s.wait = none ∧ 0xFFE < s.pc.toNat ∧ s.cfg.pcPolicy = .fatal ∧
      cycle s = .next { s with halt := some ⟨.pcOutOfRange, s.pc, none⟩ }) ∨
    (s.halt = none ∧ s.wait = none ∧ s.checkPc.halt = none ∧ s.checkPc.pc.toNat ≤ 0xFFE ∧
      cycle s = exec (decode (opcodeOf (s.readByte s.checkPc.pc.toNat)
        (s.readByte (s.checkPc.pc.toNat + 1)))) s.checkPc.advance) := by
  unfold cycle
  rcases hh : s.halt with _ | f
  · rcases hw : s.wait with _ | r
    · rcases s.checkPc_cases with ⟨hp, hc⟩ | ⟨hp, hpol, hc⟩ | ⟨hp, hpol, hc⟩
      · refine .inr (.inr (.inr ⟨rfl, rfl, by rw [hc, hh], by rw [hc]; exact hp, ?_⟩))
        rw [hc]
        simp [hh, fetchAndExec, memReadWord_eq hp]
      · have hm : s.checkPc.pc.toNat ≤ 0xFFE := by
          rw [hc]; show romBase.toNat ≤ 0xFFE; decide
        refine .inr (.inr (.inr ⟨rfl, rfl, by rw [hc]; exact hh, hm, ?_⟩))
        have hn : s.checkPc.halt = none := by rw [hc]; exact hh
        simp [hn, fetchAndExec, memReadWord_eq hm]
      · refine .inr (.inr (.inl ⟨rfl, rfl, hp, hpol, ?_⟩))
        simp [hc, hw]
    · exact .inr (.inl ⟨rfl, rfl, by simp⟩)
  · exact .inl ⟨rfl, by simp⟩

/-! ## The frame -/

@[simp] theorem State.release_i (s : State) (k : Key) : (s.release k).i = s.i := by unfold State.release; split <;> rfl
@[simp] theorem State.release_pc (s : State) (k : Key) : (s.release k).pc = s.pc := by unfold State.release; split <;> rfl
@[simp] theorem State.release_sp (s : State) (k : Key) : (s.release k).sp = s.sp := by unfold State.release; split <;> rfl
@[simp] theorem State.release_stack (s : State) (k : Key) : (s.release k).stack = s.stack := by unfold State.release; split <;> rfl
@[simp] theorem State.release_dt (s : State) (k : Key) : (s.release k).dt = s.dt := by unfold State.release; split <;> rfl
@[simp] theorem State.release_st (s : State) (k : Key) : (s.release k).st = s.st := by unfold State.release; split <;> rfl
@[simp] theorem State.release_disp (s : State) (k : Key) : (s.release k).disp = s.disp := by unfold State.release; split <;> rfl
@[simp] theorem State.release_keys (s : State) (k : Key) : (s.release k).keys = s.keys := by unfold State.release; split <;> rfl
@[simp] theorem State.release_halt (s : State) (k : Key) : (s.release k).halt = s.halt := by unfold State.release; split <;> rfl
@[simp] theorem State.release_mem (s : State) (k : Key) : (s.release k).mem = s.mem := by unfold State.release; split <;> rfl
@[simp] theorem State.release_cfg (s : State) (k : Key) : (s.release k).cfg = s.cfg := by unfold State.release; split <;> rfl
@[simp] theorem State.release_keyIn (s : State) (k : Key) : (s.release k).keyIn = s.keyIn := by unfold State.release; split <;> rfl
@[simp] theorem State.release_rndIn (s : State) (k : Key) : (s.release k).rndIn = s.rndIn := by unfold State.release; split <;> rfl
@[simp] theorem State.release_shown (s : State) (k : Key) : (s.release k).shown = s.shown := by unfold State.release; split <;> rfl
@[simp] theorem State.release_diags (s : State) (k : Key) : (s.release k).diags = s.diags := by unfold State.release; split <;> rfl
@[simp] theorem State.release_phase (s : State) (k : Key) : (s.release k).phase = s.phase := by unfold State.release; split <;> rfl
@[simp] theorem State.release_draws (s : State) (k : Key) : (s.release k).draws = s.draws := by unfold State.release; split <;> rfl
@[simp] theorem State.release_frames (s : State) (k : Key) : (s.release k).frames = s.frames := by unfold State.release; split <;> rfl
@[simp] theorem State.release_wait (s : State) (k : Key) : (s.release k).wait = none := by unfold State.release; split <;> simp_all
@[simp] theorem State.release_readByte (s : State) (k : Key) (a : Nat) : (s.release k).readByte a = s.readByte a := by simp [State.readByte]

@[simp] theorem State.applyEvent_i (s : State) (e : KeyEvent) : (s.applyEvent e).i = s.i := by cases e <;> simp [State.applyEvent]
@[simp] theorem State.applyEvent_pc (s : State) (e : KeyEvent) : (s.applyEvent e).pc = s.pc := by cases e <;> simp [State.applyEvent]
@[simp] theorem State.applyEvent_sp (s : State) (e : KeyEvent) : (s.applyEvent e).sp = s.sp := by cases e <;> simp [State.applyEvent]
@[simp] theorem State.applyEvent_stack (s : State) (e : KeyEvent) : (s.applyEvent e).stack = s.stack := by cases e <;> simp [State.applyEvent]
@[simp] theorem State.applyEvent_dt (s : State) (e : KeyEvent) : (s.applyEvent e).dt = s.dt := by cases e <;> simp [State.applyEvent]
@[simp] theorem State.applyEvent_st (s : State) (e : KeyEvent) : (s.applyEvent e).st = s.st := by cases e <;> simp [State.applyEvent]
@[simp] theorem State.applyEvent_disp (s : State) (e : KeyEvent) : (s.applyEvent e).disp = s.disp := by cases e <;> simp [State.applyEvent]
@[simp] theorem State.applyEvent_halt (s : State) (e : KeyEvent) : (s.applyEvent e).halt = s.halt := by cases e <;> simp [State.applyEvent]
@[simp] theorem State.applyEvent_mem (s : State) (e : KeyEvent) : (s.applyEvent e).mem = s.mem := by cases e <;> simp [State.applyEvent]
@[simp] theorem State.applyEvent_cfg (s : State) (e : KeyEvent) : (s.applyEvent e).cfg = s.cfg := by cases e <;> simp [State.applyEvent]
@[simp] theorem State.applyEvent_keyIn (s : State) (e : KeyEvent) : (s.applyEvent e).keyIn = s.keyIn := by cases e <;> simp [State.applyEvent]
@[simp] theorem State.applyEvent_rndIn (s : State) (e : KeyEvent) : (s.applyEvent e).rndIn = s.rndIn := by cases e <;> simp [State.applyEvent]
@[simp] theorem State.applyEvent_shown (s : State) (e : KeyEvent) : (s.applyEvent e).shown = s.shown := by cases e <;> simp [State.applyEvent]
@[simp] theorem State.applyEvent_diags (s : State) (e : KeyEvent) : (s.applyEvent e).diags = s.diags := by cases e <;> simp [State.applyEvent]
@[simp] theorem State.applyEvent_phase (s : State) (e : KeyEvent) : (s.applyEvent e).phase = s.phase := by cases e <;> simp [State.applyEvent]
@[simp] theorem State.applyEvent_draws (s : State) (e : KeyEvent) : (s.applyEvent e).draws = s.draws := by cases e <;> simp [State.applyEvent]
@[simp] theorem State.applyEvent_frames (s : State) (e : KeyEvent) : (s.applyEvent e).frames = s.frames := by cases e <;> simp [State.applyEvent]
@[simp] theorem State.applyEvent_readByte (s : State) (e : KeyEvent) (a : Nat) : (s.applyEvent e).readByte a = s.readByte a := by simp [State.readByte]

@[simp] theorem State.applyEvents_i (s : State) (es : List KeyEvent) : (s.applyEvents es).i = s.i := by
  unfold State.applyEvents; induction es generalizing s <;> simp_all
@[simp] theorem State.applyEvents_pc (s : State) (es : List KeyEvent) : (s.applyEvents es).pc = s.pc := by
  unfold State.applyEvents; induction es generalizing s <;> simp_all
@[simp] theorem State.applyEvents_sp (s : State) (es : List KeyEvent) : (s.applyEvents es).sp = s.sp := by
  unfold State.applyEvents; induction es generalizing s <;> simp_all
@[simp] theorem State.applyEvents_stack (s : State) (es : List KeyEvent) : (s.applyEvents es).stack = s.stack := by
  unfold State.applyEvents; induction es generalizing s <;> simp_all
@[simp] theorem State.applyEvents_dt (s : State) (es : List KeyEvent) : (s.applyEvents es).dt = s.dt := by
  unfold State.applyEvents; induction es generalizing s <;> simp_all
@[simp] theorem State.applyEvents_st (s : State) (es : List KeyEvent) : (s.applyEvents es).st = s.st := by
  unfold State.applyEvents; induction es generalizing s <;> simp_all
@[simp] theorem State.applyEvents_disp (s : State) (es : List KeyEvent) : (s.applyEvents es).disp = s.disp := by
  unfold State.applyEvents; induction es generalizing s <;> simp_all
@[simp] theorem State.applyEvents_halt (s : State) (es : List KeyEvent) : (s.applyEvents es).halt = s.halt := by
  unfold State.applyEvents; induction es generalizing s <;> simp_all
@[simp] theorem State.applyEvents_mem (s : State) (es : List KeyEvent) : (s.applyEvents es).mem = s.mem := by
  unfold State.applyEvents; induction es generalizing s <;> simp_all
@[simp] theorem State.applyEvents_cfg (s : State) (es : List KeyEvent) : (s.applyEvents es).cfg = s.cfg := by
  unfold State.applyEvents; induction es generalizing s <;> simp_all
@[simp] theorem State.applyEvents_keyIn (s : State) (es : List KeyEvent) : (s.applyEvents es).keyIn = s.keyIn := by
  unfold State.applyEvents; induction es generalizing s <;> simp_all
@[simp] theorem State.applyEvents_rndIn (s : State) (es : List KeyEvent) : (s.applyEvents es).rndIn = s.rndIn := by
  unfold State.applyEvents; induction es generalizing s <;> simp_all
@[simp] theorem State.applyEvents_shown (s : State) (es : List KeyEvent) : (s.applyEvents es).shown = s.shown := by
  unfold State.applyEvents; induction es generalizing s <;> simp_all
@[simp] theorem State.applyEvents_diags (s : State) (es : List KeyEvent) : (s.applyEvents es).diags = s.diags := by
  unfold State.applyEvents; induction es generalizing s <;> simp_all
@[simp] theorem State.applyEvents_phase (s : State) (es : List KeyEvent) : (s.applyEvents es).phase = s.phase := by
  unfold State.applyEvents; induction es generalizing s <;> simp_all
@[simp] theorem State.applyEvents_draws (s : State) (es : List KeyEvent) : (s.applyEvents es).draws = s.draws := by
  unfold State.applyEvents; induction es generalizing s <;> simp_all
@[simp] theorem State.applyEvents_frames (s : State) (es : List KeyEvent) : (s.applyEvents es).frames = s.frames := by
  unfold State.applyEvents; induction es generalizing s <;> simp_all
@[simp] theorem State.applyEvents_readByte (s : State) (es : List KeyEvent) (a : Nat) : (s.applyEvents es).readByte a = s.readByte a := by simp [State.readByte]

@[simp] theorem State.afterEvents_v (s : State) : (s.afterEvents).v = s.v := rfl
@[simp] theorem State.afterEvents_i (s : State) : (s.afterEvents).i = s.i := rfl
@[simp] theorem State.afterEvents_pc (s : State) : (s.afterEvents).pc = s.pc := rfl
@[simp] theorem State.afterEvents_sp (s : State) : (s.afterEvents).sp = s.sp := rfl
@[simp] theorem State.afterEvents_stack (s : State) : (s.afterEvents).stack = s.stack := rfl
@[simp] theorem State.afterEvents_dt (s : State) : (s.afterEvents).dt = s.dt := rfl
@[simp] theorem State.afterEvents_st (s : State) : (s.afterEvents).st = s.st := rfl
@[simp] theorem State.afterEvents_disp (s : State) : (s.afterEvents).disp = s.disp := rfl
@[simp] theorem State.afterEvents_keys (s : State) : (s.afterEvents).keys = s.keys := rfl
@[simp] theorem State.afterEvents_wait (s : State) : (s.afterEvents).wait = s.wait := rfl
@[simp] theorem State.afterEvents_halt (s : State) : (s.afterEvents).halt = s.halt := rfl
@[simp] theorem State.afterEvents_mem (s : State) : (s.afterEvents).mem = s.mem := rfl
@[simp] theorem State.afterEvents_cfg (s : State) : (s.afterEvents).cfg = s.cfg := rfl
@[simp] theorem State.afterEvents_rndIn (s : State) : (s.afterEvents).rndIn = s.rndIn := rfl
@[simp] theorem State.afterEvents_shown (s : State) : (s.afterEvents).shown = s.shown := rfl
@[simp] theorem State.afterEvents_diags (s : State) : (s.afterEvents).diags = s.diags := rfl
@[simp] theorem State.afterEvents_phase (s : State) : (s.afterEvents).phase = s.phase := rfl
@[simp] theorem State.afterEvents_draws (s : State) : (s.afterEvents).draws = s.draws := rfl
@[simp] theorem State.afterEvents_keyIn (s : State) : (s.afterEvents).keyIn = s.keyIn.tail := rfl
@[simp] theorem State.afterEvents_frames (s : State) : (s.afterEvents).frames = s.frames + 1 := rfl
@[simp] theorem State.afterEvents_reg (s : State) (r : Reg) : (s.afterEvents).reg r = s.reg r := by simp [State.reg]
@[simp] theorem State.afterEvents_readByte (s : State) (a : Nat) : (s.afterEvents).readByte a = s.readByte a := by simp [State.readByte]

@[simp] theorem State.inputPhase_i (s : State) : (s.inputPhase).i = s.i := by simp [State.inputPhase]
@[simp] theorem State.inputPhase_pc (s : State) : (s.inputPhase).pc = s.pc := by simp [State.inputPhase]
@[simp] theorem State.inputPhase_sp (s : State) : (s.inputPhase).sp = s.sp := by simp [State.inputPhase]
@[simp] theorem State.inputPhase_stack (s : State) : (s.inputPhase).stack = s.stack := by simp [State.inputPhase]
@[simp] theorem State.inputPhase_dt (s : State) : (s.inputPhase).dt = s.dt := by simp [State.inputPhase]
@[simp] theorem State.inputPhase_st (s : State) : (s.inputPhase).st = s.st := by simp [State.inputPhase]
@[simp] theorem State.inputPhase_disp (s : State) : (s.inputPhase).disp = s.disp := by simp [State.inputPhase]
@[simp] theorem State.inputPhase_halt (s : State) : (s.inputPhase).halt = s.halt := by simp [State.inputPhase]
@[simp] theorem State.inputPhase_mem (s : State) : (s.inputPhase).mem = s.mem := by simp [State.inputPhase]
@[simp] theorem State.inputPhase_cfg (s : State) : (s.inputPhase).cfg = s.cfg := by simp [State.inputPhase]
@[simp] theorem State.inputPhase_rndIn (s : State) : (s.inputPhase).rndIn = s.rndIn := by simp [State.inputPhase]
@[simp] theorem State.inputPhase_shown (s : State) : (s.inputPhase).shown = s.shown := by simp [State.inputPhase]
@[simp] theorem State.inputPhase_diags (s : State) : (s.inputPhase).diags = s.diags := by simp [State.inputPhase]
@[simp] theorem State.inputPhase_phase (s : State) : (s.inputPhase).phase = s.phase := by simp [State.inputPhase]
@[simp] theorem State.inputPhase_draws (s : State) : (s.inputPhase).draws = s.draws := by simp [State.inputPhase]
@[simp] theorem State.inputPhase_keyIn (s : State) : (s.inputPhase).keyIn = s.keyIn.tail := by simp [State.inputPhase]
@[simp] theorem State.inputPhase_frames (s : State) : (s.inputPhase).frames = s.frames + 1 := by simp [State.inputPhase]
@[simp] theorem State.inputPhase_readByte (s : State) (a : Nat) : (s.inputPhase).readByte a = s.readByte a := by simp [State.readByte]

@[simp] theorem State.timerPhase_v (s : State) : (s.timerPhase).v = s.v := rfl
@[simp] theorem State.timerPhase_i (s : State) : (s.timerPhase).i = s.i := rfl
@[simp] theorem State.timerPhase_pc (s : State) : (s.timerPhase).pc = s.pc := rfl
@[simp] theorem State.timerPhase_sp (s : State) : (s.timerPhase).sp = s.sp := rfl
@[simp] theorem State.timerPhase_stack (s : State) : (s.timerPhase).stack = s.stack := rfl
@[simp] theorem State.timerPhase_disp (s : State) : (s.timerPhase).disp = s.disp := rfl
@[simp] theorem State.timerPhase_keys (s : State) : (s.timerPhase).keys = s.keys := rfl
@[simp] theorem State.timerPhase_wait (s : State) : (s.timerPhase).wait = s.wait := rfl
@[simp] theorem State.timerPhase_halt (s : State) : (s.timerPhase).halt = s.halt := rfl
@[simp] theorem State.timerPhase_mem (s : State) : (s.timerPhase).mem = s.mem := rfl
@[simp] theorem State.timerPhase_cfg (s : State) : (s.timerPhase).cfg = s.cfg := rfl
@[simp] theorem State.timerPhase_keyIn (s : State) : (s.timerPhase).keyIn = s.keyIn := rfl
@[simp] theorem State.timerPhase_rndIn (s : State) : (s.timerPhase).rndIn = s.rndIn := rfl
@[simp] theorem State.timerPhase_shown (s : State) : (s.timerPhase).shown = s.shown := rfl
@[simp] theorem State.timerPhase_diags (s : State) : (s.timerPhase).diags = s.diags := rfl
@[simp] theorem State.timerPhase_phase (s : State) : (s.timerPhase).phase = s.phase := rfl
@[simp] theorem State.timerPhase_draws (s : State) : (s.timerPhase).draws = s.draws := rfl
@[simp] theorem State.timerPhase_frames (s : State) : (s.timerPhase).frames = s.frames := rfl
@[simp] theorem State.timerPhase_dt (s : State) : (s.timerPhase).dt = tick s.dt := rfl
@[simp] theorem State.timerPhase_st (s : State) : (s.timerPhase).st = tick s.st := rfl
@[simp] theorem State.timerPhase_reg (s : State) (r : Reg) : (s.timerPhase).reg r = s.reg r := by simp [State.reg]
@[simp] theorem State.timerPhase_readByte (s : State) (a : Nat) : (s.timerPhase).readByte a = s.readByte a := by simp [State.readByte]

@[simp] theorem State.outputPhase_v (s : State) : (s.outputPhase).v = s.v := rfl
@[simp] theorem State.outputPhase_i (s : State) : (s.outputPhase).i = s.i := rfl
@[simp] theorem State.outputPhase_pc (s : State) : (s.outputPhase).pc = s.pc := rfl
@[simp] theorem State.outputPhase_sp (s : State) : (s.outputPhase).sp = s.sp := rfl
@[simp] theorem State.outputPhase_stack (s : State) : (s.outputPhase).stack = s.stack := rfl
@[simp] theorem State.outputPhase_dt (s : State) : (s.outputPhase).dt = s.dt := rfl
@[simp] theorem State.outputPhase_st (s : State) : (s.outputPhase).st = s.st := rfl
@[simp] theorem State.outputPhase_disp (s : State) : (s.outputPhase).disp = s.disp := rfl
@[simp] theorem State.outputPhase_keys (s : State) : (s.outputPhase).keys = s.keys := rfl
@[simp] theorem State.outputPhase_wait (s : State) : (s.outputPhase).wait = s.wait := rfl
@[simp] theorem State.outputPhase_halt (s : State) : (s.outputPhase).halt = s.halt := rfl
@[simp] theorem State.outputPhase_mem (s : State) : (s.outputPhase).mem = s.mem := rfl
@[simp] theorem State.outputPhase_cfg (s : State) : (s.outputPhase).cfg = s.cfg := rfl
@[simp] theorem State.outputPhase_keyIn (s : State) : (s.outputPhase).keyIn = s.keyIn := rfl
@[simp] theorem State.outputPhase_rndIn (s : State) : (s.outputPhase).rndIn = s.rndIn := rfl
@[simp] theorem State.outputPhase_diags (s : State) : (s.outputPhase).diags = s.diags := rfl
@[simp] theorem State.outputPhase_phase (s : State) : (s.outputPhase).phase = s.phase := rfl
@[simp] theorem State.outputPhase_draws (s : State) : (s.outputPhase).draws = s.draws := rfl
@[simp] theorem State.outputPhase_frames (s : State) : (s.outputPhase).frames = s.frames := rfl
@[simp] theorem State.outputPhase_shown (s : State) : (s.outputPhase).shown = some ⟨s.disp, s.st.toNat > 0⟩ := rfl
@[simp] theorem State.outputPhase_reg (s : State) (r : Reg) : (s.outputPhase).reg r = s.reg r := by simp [State.reg]
@[simp] theorem State.outputPhase_readByte (s : State) (a : Nat) : (s.outputPhase).readByte a = s.readByte a := by simp [State.readByte]

@[simp] theorem State.beginFrame_i (s : State) : (s.beginFrame).i = s.i := by simp [State.beginFrame]
@[simp] theorem State.beginFrame_pc (s : State) : (s.beginFrame).pc = s.pc := by simp [State.beginFrame]
@[simp] theorem State.beginFrame_sp (s : State) : (s.beginFrame).sp = s.sp := by simp [State.beginFrame]
@[simp] theorem State.beginFrame_stack (s : State) : (s.beginFrame).stack = s.stack := by simp [State.beginFrame]
@[simp] theorem State.beginFrame_dt (s : State) : (s.beginFrame).dt = s.dt := by simp [State.beginFrame]
@[simp] theorem State.beginFrame_st (s : State) : (s.beginFrame).st = s.st := by simp [State.beginFrame]
@[simp] theorem State.beginFrame_disp (s : State) : (s.beginFrame).disp = s.disp := by simp [State.beginFrame]
@[simp] theorem State.beginFrame_halt (s : State) : (s.beginFrame).halt = s.halt := by simp [State.beginFrame]
@[simp] theorem State.beginFrame_mem (s : State) : (s.beginFrame).mem = s.mem := by simp [State.beginFrame]
@[simp] theorem State.beginFrame_cfg (s : State) : (s.beginFrame).cfg = s.cfg := by simp [State.beginFrame]
@[simp] theorem State.beginFrame_rndIn (s : State) : (s.beginFrame).rndIn = s.rndIn := by simp [State.beginFrame]
@[simp] theorem State.beginFrame_shown (s : State) : (s.beginFrame).shown = s.shown := by simp [State.beginFrame]
@[simp] theorem State.beginFrame_diags (s : State) : (s.beginFrame).diags = s.diags := by simp [State.beginFrame]
@[simp] theorem State.beginFrame_draws (s : State) : (s.beginFrame).draws = s.draws := by simp [State.beginFrame]
@[simp] theorem State.beginFrame_frames (s : State) : (s.beginFrame).frames = s.frames + 1 := by simp [State.beginFrame]
@[simp] theorem State.beginFrame_v (s : State) : (s.beginFrame).v = s.inputPhase.v := by simp [State.beginFrame]
@[simp] theorem State.beginFrame_wait (s : State) : (s.beginFrame).wait = s.inputPhase.wait := by simp [State.beginFrame]
@[simp] theorem State.beginFrame_keys (s : State) : (s.beginFrame).keys = s.inputPhase.keys := by simp [State.beginFrame]
@[simp] theorem State.beginFrame_keyIn (s : State) : (s.beginFrame).keyIn = s.keyIn.tail := by simp [State.beginFrame]
@[simp] theorem State.beginFrame_phase (s : State) : (s.beginFrame).phase = .slots s.cfg.ipf := by simp [State.beginFrame]
@[simp] theorem State.beginFrame_readByte (s : State) (a : Nat) : (s.beginFrame).readByte a = s.readByte a := by simp [State.readByte]

@[simp] theorem State.endFrame_v (s : State) : (s.endFrame).v = s.v := rfl
@[simp] theorem State.endFrame_i (s : State) : (s.endFrame).i = s.i := rfl
@[simp] theorem State.endFrame_pc (s : State) : (s.endFrame).pc = s.pc := rfl
@[simp] theorem State.endFrame_sp (s : State) : (s.endFrame).sp = s.sp := rfl
@[simp] theorem State.endFrame_stack (s : State) : (s.endFrame).stack = s.stack := rfl
@[simp] theorem State.endFrame_disp (s : State) : (s.endFrame).disp = s.disp := rfl
@[simp] theorem State.endFrame_keys (s : State) : (s.endFrame).keys = s.keys := rfl
@[simp] theorem State.endFrame_wait (s : State) : (s.endFrame).wait = s.wait := rfl
@[simp] theorem State.endFrame_halt (s : State) : (s.endFrame).halt = s.halt := rfl
@[simp] theorem State.endFrame_mem (s : State) : (s.endFrame).mem = s.mem := rfl
@[simp] theorem State.endFrame_cfg (s : State) : (s.endFrame).cfg = s.cfg := rfl
@[simp] theorem State.endFrame_keyIn (s : State) : (s.endFrame).keyIn = s.keyIn := rfl
@[simp] theorem State.endFrame_rndIn (s : State) : (s.endFrame).rndIn = s.rndIn := rfl
@[simp] theorem State.endFrame_diags (s : State) : (s.endFrame).diags = s.diags := rfl
@[simp] theorem State.endFrame_draws (s : State) : (s.endFrame).draws = s.draws := rfl
@[simp] theorem State.endFrame_frames (s : State) : (s.endFrame).frames = s.frames := rfl
@[simp] theorem State.endFrame_dt (s : State) : (s.endFrame).dt = tick s.dt := rfl
@[simp] theorem State.endFrame_st (s : State) : (s.endFrame).st = tick s.st := rfl
@[simp] theorem State.endFrame_shown (s : State) : (s.endFrame).shown = some ⟨s.disp, (tick s.st).toNat > 0⟩ := rfl
@[simp] theorem State.endFrame_phase (s : State) : (s.endFrame).phase = .input := rfl
@[simp] theorem State.endFrame_reg (s : State) (r : Reg) : (s.endFrame).reg r = s.reg r := by simp [State.reg]
@[simp] theorem State.endFrame_readByte (s : State) (a : Nat) : (s.endFrame).readByte a = s.readByte a := by simp [State.readByte]

@[simp] theorem State.afterSlot_v (s : State) (left : Nat) : (s.afterSlot left).v = s.v := rfl
@[simp] theorem State.afterSlot_i (s : State) (left : Nat) : (s.afterSlot left).i = s.i := rfl
@[simp] theorem State.afterSlot_pc (s : State) (left : Nat) : (s.afterSlot left).pc = s.pc := rfl
@[simp] theorem State.afterSlot_sp (s : State) (left : Nat) : (s.afterSlot left).sp = s.sp := rfl
@[simp] theorem State.afterSlot_stack (s : State) (left : Nat) : (s.afterSlot left).stack = s.stack := rfl
@[simp] theorem State.afterSlot_dt (s : State) (left : Nat) : (s.afterSlot left).dt = s.dt := rfl
@[simp] theorem State.afterSlot_st (s : State) (left : Nat) : (s.afterSlot left).st = s.st := rfl
@[simp] theorem State.afterSlot_disp (s : State) (left : Nat) : (s.afterSlot left).disp = s.disp := rfl
@[simp] theorem State.afterSlot_keys (s : State) (left : Nat) : (s.afterSlot left).keys = s.keys := rfl
@[simp] theorem State.afterSlot_wait (s : State) (left : Nat) : (s.afterSlot left).wait = s.wait := rfl
@[simp] theorem State.afterSlot_halt (s : State) (left : Nat) : (s.afterSlot left).halt = s.halt := rfl
@[simp] theorem State.afterSlot_mem (s : State) (left : Nat) : (s.afterSlot left).mem = s.mem := rfl
@[simp] theorem State.afterSlot_cfg (s : State) (left : Nat) : (s.afterSlot left).cfg = s.cfg := rfl
@[simp] theorem State.afterSlot_keyIn (s : State) (left : Nat) : (s.afterSlot left).keyIn = s.keyIn := rfl
@[simp] theorem State.afterSlot_rndIn (s : State) (left : Nat) : (s.afterSlot left).rndIn = s.rndIn := rfl
@[simp] theorem State.afterSlot_shown (s : State) (left : Nat) : (s.afterSlot left).shown = s.shown := rfl
@[simp] theorem State.afterSlot_diags (s : State) (left : Nat) : (s.afterSlot left).diags = s.diags := rfl
@[simp] theorem State.afterSlot_draws (s : State) (left : Nat) : (s.afterSlot left).draws = s.draws := rfl
@[simp] theorem State.afterSlot_frames (s : State) (left : Nat) : (s.afterSlot left).frames = s.frames := rfl
@[simp] theorem State.afterSlot_phase (s : State) (left : Nat) : (s.afterSlot left).phase = if s.halt.isSome then .input else .slots left := rfl
@[simp] theorem State.afterSlot_reg (s : State) (left : Nat) (r : Reg) : (s.afterSlot left).reg r = s.reg r := by simp [State.reg]
@[simp] theorem State.afterSlot_readByte (s : State) (left : Nat) (a : Nat) : (s.afterSlot left).readByte a = s.readByte a := by simp [State.readByte]

/-- When a frame has begun, the events of the frames to come are those that were to come after it. -/
@[simp] theorem State.afterEvents_eventsAt (s : State) (j : Nat) :
    s.afterEvents.eventsAt j = s.eventsAt (j + 1) := by
  have h : s.frames + 1 + j = s.frames + (j + 1) := by omega
  cases hk : s.keyIn <;> simp [State.eventsAt, hk, h]

/-- The events to come depend on the port and the count of frames only. -/
theorem State.eventsAt_congr {s t : State} (hk : t.keyIn = s.keyIn) (hf : t.frames = s.frames) (j : Nat) :
    t.eventsAt j = s.eventsAt j := by
  simp [State.eventsAt, hk, hf]

/-- Where the port holds no list for a frame, its events are the free list: nothing is known of them. -/
theorem State.eventsAt_of_length_le {s : State} {j : Nat} (h : s.keyIn.length ≤ j) :
    s.eventsAt j = Config.keyEvents (s.frames + j) := by
  simp [State.eventsAt, List.getD_eq_getElem?_getD, List.getElem?_eq_none h]

/-- `tick` takes 1 away and stops at 0 (40_cycle.md R95). -/
@[simp] theorem tick_toNat (t : Byte) : (tick t).toNat = t.toNat - 1 := by
  simp only [tick, BitVec.toNat_ofNat]
  have := t.isLt
  omega

/-- What a step does: nothing when halted, the input phase, one slot, or the end of the frame (40_cycle.md
R91). -/
theorem step_cases (s : State) :
    (s.halt.isSome ∧ step s = .next s) ∨
    (s.halt = none ∧ s.phase = .input ∧ step s = .next s.beginFrame) ∨
    (∃ left, s.halt = none ∧ s.phase = .slots (left + 1) ∧ step s = slot left s) ∨
    (s.halt = none ∧ s.phase = .slots 0 ∧ step s = .next s.endFrame) := by
  unfold step
  rcases s.halt with _ | f
  · rcases s.phase with _ | left
    · exact .inr (.inl ⟨rfl, rfl, rfl⟩)
    · rcases left with _ | left
      · exact .inr (.inr (.inr ⟨rfl, rfl, rfl⟩))
      · exact .inr (.inr (.inl ⟨left, rfl, rfl, rfl⟩))
  · exact .inl ⟨rfl, rfl⟩

end Sys2Proof.Machine
end

