-- ==== Sys2Proof/Laws/Step.lean ====
section
/-! SUPPORT. Everything one instruction and one step can do, said once. -/

namespace Sys2Proof.Machine

/-- What a step in the cycle phase does: a skipped slot, PcOutOfRange, or one instruction (40_cycle.md R80,
R81, R83). -/
theorem slot_cases {s t : State} {l : Nat} (hh : s.halt = none) (hp : s.phase = .slots (l + 1))
    (h : step s = .next t) :
    (s.wait ≠ none ∧ s.nextInstr = none ∧ t = { s with phase := .slots l }) ∨
    (s.wait = none ∧ s.nextInstr = none ∧ 0xFFE < s.pc.toNat ∧ s.cfg.pcPolicy = .fatal ∧
      t = { s with halt := some ⟨.pcOutOfRange, s.pc, none⟩, phase := .input }) ∨
    (s.wait = none ∧ s.checkPc.halt = none ∧ ∃ u, s.nextInstr = some (decode s.nextOpcode) ∧
      exec (decode s.nextOpcode) s.checkPc.advance = .next u ∧ t = u.afterSlot l) := by
  rcases step_cases s with ⟨e, -⟩ | ⟨-, e, -⟩ | ⟨l', -, e', e⟩ | ⟨-, e, -⟩
  · simp [hh] at e
  · simp [hp] at e
  · rw [hp] at e'; cases e'
    rw [e, slot] at h
    obtain ⟨u, hu, h2⟩ := thenDo_next h
    cases h2
    rcases cycle_cases s with ⟨h', -⟩ | ⟨_, hw, e⟩ | ⟨_, hw, hpc, hpol, e⟩ | ⟨_, hw, hc, _, e⟩
    · simp [hh] at h'
    · left
      rw [e] at hu; cases hu
      refine ⟨by intro h; simp [h] at hw, ?_, ?_⟩
      · simp only [State.nextInstr, hp]; rw [if_neg]; rintro ⟨-, h, -⟩; simp [h] at hw
      · simp [State.afterSlot, hh]
    · right; left
      rw [e] at hu; cases hu
      refine ⟨hw, ?_, hpc, hpol, ?_⟩
      · simp only [State.nextInstr, hp]; rw [if_neg]; rintro ⟨-, -, h⟩
        rcases s.checkPc_cases with ⟨h2, -⟩ | ⟨-, h2, -⟩ | ⟨-, -, h2⟩
        · omega
        · rw [hpol] at h2; cases h2
        · rw [h2] at h; cases h
      · simp [State.afterSlot]
    · right; right
      rw [hu] at e
      exact ⟨hw, hc, u, by simp [State.nextInstr, hp, hh, hw, hc], e.symm, rfl⟩
  · simp [hp] at e

/-- Everything a step can do: nothing when halted, the beginning of a frame, its end, a skipped slot, PcOutOfRange,
or one instruction (40_cycle.md R80, R91). -/
theorem step_effect {s t : State} (h : step s = .next t) :
    (s.halt ≠ none ∧ s.nextInstr = none ∧ t = s) ∨
    (s.halt = none ∧ s.phase = .input ∧ s.nextInstr = none ∧ t = s.beginFrame) ∨
    (s.halt = none ∧ s.phase = .slots 0 ∧ s.nextInstr = none ∧ t = s.endFrame) ∨
    (∃ l, s.phase = .slots (l + 1) ∧ s.halt = none ∧ s.wait ≠ none ∧ s.nextInstr = none ∧
      t = { s with phase := .slots l }) ∨
    (∃ l, s.phase = .slots (l + 1) ∧ s.halt = none ∧ s.wait = none ∧ s.nextInstr = none ∧
      0xFFE < s.pc.toNat ∧ s.cfg.pcPolicy = .fatal ∧
      t = { s with halt := some ⟨.pcOutOfRange, s.pc, none⟩, phase := .input }) ∨
    (∃ l, s.phase = .slots (l + 1) ∧ s.halt = none ∧ s.wait = none ∧ s.checkPc.halt = none ∧
      ∃ u, s.nextInstr = some (decode s.nextOpcode) ∧
        exec (decode s.nextOpcode) s.checkPc.advance = .next u ∧ t = u.afterSlot l) := by
  by_cases hh : s.halt = none
  · right
    rcases hp : s.phase with _ | l
    · left
      rcases step_cases s with ⟨e, -⟩ | ⟨-, _, e⟩ | ⟨l', -, e', e⟩ | ⟨-, e, -⟩
      · simp [hh] at e
      · rw [e] at h; cases h; exact ⟨hh, rfl, by simp [State.nextInstr, hp], rfl⟩
      · simp [hp] at e'
      · simp [hp] at e
    cases l with
    | zero =>
      right; left
      rcases step_cases s with ⟨e, -⟩ | ⟨-, e, _⟩ | ⟨l', -, e', e⟩ | ⟨-, _, e⟩
      · simp [hh] at e
      · simp [hp] at e
      · simp [hp] at e'
      · rw [e] at h; cases h; exact ⟨hh, rfl, by simp [State.nextInstr, hp], rfl⟩
    | succ l =>
      right; right
      rcases slot_cases hh hp h with ⟨a, b, c⟩ | ⟨a, b, c, d, e⟩ | ⟨a, b, c⟩
      · exact .inl ⟨l, rfl, hh, a, b, c⟩
      · exact .inr (.inl ⟨l, rfl, hh, a, b, c, d, e⟩)
      · exact .inr (.inr ⟨l, rfl, hh, a, b, c⟩)
  · left
    refine ⟨hh, ?_, ?_⟩
    · simp only [State.nextInstr, hh]; split <;> simp
    · rcases step_cases s with ⟨_, e⟩ | ⟨e, _⟩ | ⟨l', e, _⟩ | ⟨e, _⟩
      · rw [e] at h; cases h; rfl
      all_goals exact absurd e hh

/-- Everything an instruction can do: one of six raises its fatal error, or it leaves `HALT` as it was; for the six,
with the effect of their rule (60_exceptions.md R190, R195). The other meanings are their own equations. -/
theorem exec_effect {i : Instr} {s t : State} : exec i s = .next t →
    (∃ c, t = s.takeFatal c (s.pc - 2) (some (encode i)) ∧ c ≠ .pcOutOfRange ∧
      ((∃ n, i = .call n) ∨ (∃ n, i = .ret n) ∨ (∃ x y n, i = .drw x y n) ∨ (∃ x, i = .ldB x) ∨
        (∃ x, i = .ldMemVx x) ∨ (∃ x, i = .ldVxMem x))) ∨
    (t.halt = s.halt ∧ match i with
    | .call nnn => ∃ h : s.sp.val < 16, t =
      { s with stack := s.stack.set s.sp.val s.pc, sp := ⟨s.sp.val + 1, by omega⟩, pc := zext16 nnn }
    | .ret _ => ∃ (n : Nat) (h : n < 16), s.sp = ⟨n + 1, by omega⟩ ∧ t =
      { s with sp := ⟨n, by omega⟩, pc := s.stack[n] }
    | .ldB x => s.effAddr 2 ≤ 0xFFF ∧ t =
      { s with mem := Memory.writeAll s.cfg s.mem (s.effAddr 0) (bcdDigits (s.reg x)) }
    | .ldMemVx x => s.effAddr x.val ≤ 0xFFF ∧ t =
      { s with mem := Memory.writeAll s.cfg s.mem (s.effAddr 0) (s.regsTo x) }
    | .ldVxMem x => s.effAddr x.val ≤ 0xFFF ∧ t =
      (s.setRegs 0 ((List.range (x.val + 1)).map fun k => s.readByte (s.effAddr 0 + k)))
    | .drw x y n => (n = 0 ∨ s.effAddr (n.toNat - 1) ≤ 0xFFF) ∧ t =
      (s.draw x y ((List.range n.toNat).map fun k => s.readByte (s.effAddr 0 + k)))
    | _ => True) := by
  intro h
  cases i with
  | ret mid =>
    rcases execRet_cases mid s with ⟨-, e⟩ | ⟨n, hn, hs, e⟩ <;>
      (rw [show exec (.ret mid) s = execRet mid s from rfl, e] at h; cases h)
    · exact .inl ⟨_, rfl, by simp⟩
    · exact .inr ⟨rfl, n, hn, hs, rfl⟩
  | call nnn =>
    rcases execCall_cases nnn s with ⟨_, e⟩ | ⟨hs, e⟩ <;>
      (rw [show exec (.call nnn) s = execCall nnn s from rfl, e] at h; cases h)
    · exact .inl ⟨_, rfl, by simp⟩
    · exact .inr ⟨rfl, hs, rfl⟩
  | drw x y n =>
    rcases execDrw_cases x y n s with ⟨-, -, e⟩ | ⟨hs, e⟩ <;>
      (rw [show exec (.drw x y n) s = execDrw x y n s from rfl, e] at h; cases h)
    · exact .inl ⟨_, rfl, by simp⟩
    · exact .inr ⟨by simp, hs, rfl⟩
  | ldB x =>
    rcases execLdB_cases x s with ⟨-, e⟩ | ⟨hs, e⟩ <;>
      (rw [show exec (.ldB x) s = execLdB x s from rfl, e] at h; cases h)
    · exact .inl ⟨_, rfl, by simp⟩
    · exact .inr ⟨by simp, hs, rfl⟩
  | ldMemVx x =>
    rcases execLdMemVx_cases x s with ⟨-, e⟩ | ⟨hs, e⟩ <;>
      (rw [show exec (.ldMemVx x) s = execLdMemVx x s from rfl, e] at h; cases h)
    · exact .inl ⟨_, rfl, by simp⟩
    · exact .inr ⟨by simp, hs, rfl⟩
  | ldVxMem x =>
    rcases execLdVxMem_cases x s with ⟨-, e⟩ | ⟨hs, e⟩ <;>
      (rw [show exec (.ldVxMem x) s = execLdVxMem x s from rfl, e] at h; cases h)
    · exact .inl ⟨_, rfl, by simp⟩
    · exact .inr ⟨by simp, hs, rfl⟩
  | _ => right; cases h; simp

end Sys2Proof.Machine
end

