-- ==== Sys2Proof/Laws/Aside.lean ====
section
/-! SUPPORT. No instruction reads the model's `phase`, the diagnostic port or the outputs of the frame: with other
values there it does the same (10_state.md R39, 60_exceptions.md R197). -/

namespace Sys2Proof.Machine

/-- `s` with another phase, other diagnostic events and other frame outputs. -/
def State.withAside (s : State) (p : Phase) (d : List Diag) (o : Option FrameOut) : State :=
  { s with phase := p, diags := d, shown := o }

@[simp] theorem State.withAside_self (s : State) : s.withAside s.phase s.diags s.shown = s := rfl

/-- The diagnostic event that the instruction `i` emits at `s`. -/
def emits (i : Instr) (s : State) : List Diag :=
  match i with
  | .noHandler op => [.unknownOpcode (s.pc - 2) op]
  | _ => []

theorem setRegs_withAside (s : State) (p : Phase) (d : List Diag) (o : Option FrameOut) (k : Nat)
    (bytes : List Byte) : (s.withAside p d o).setRegs k bytes = (s.setRegs k bytes).withAside p d o := by
  induction bytes generalizing s k with
  | nil => rfl
  | cons b bs ih =>
    unfold State.setRegs
    by_cases h : k < 16
    · simp only [dif_pos h]; exact ih (s.setReg ⟨k, h⟩ b) _
    · simp only [dif_neg h]; exact ih s _

theorem setRegAndFlag_withAside (s : State) (p : Phase) (d : List Diag) (o : Option FrameOut)
    (ro : RowOrder) (x : Reg) (b : Byte) (f : Bool) :
    (s.withAside p d o).setRegAndFlag ro x b f = (s.setRegAndFlag ro x b f).withAside p d o := by
  unfold State.setRegAndFlag State.withAside
  dsimp only
  cases s.cfg.vfOrder <;> cases ro <;> rfl

theorem skipIf_withAside (s : State) (p : Phase) (d : List Diag) (o : Option FrameOut) (c : Bool) :
    (s.withAside p d o).skipIf c = (s.skipIf c).withAside p d o := by
  cases c <;> rfl

/-- An instruction does the same whatever `phase`, `diags` and `shown` are, and adds its own events. -/
theorem exec_withAside (i : Instr) (s : State) (p : Phase) (d : List Diag) (o : Option FrameOut) :
    exec i (s.withAside p d o) =
      thenDo (exec i s) fun t => .next (t.withAside p (d ++ emits i s) o) := by
  have effAddr : ∀ k, (s.withAside p d o).effAddr k = s.effAddr k := fun _ => rfl
  have sp : (s.withAside p d o).sp = s.sp := rfl
  cases i with
  | ret mid =>
    simp only [emits, List.append_nil]
    change execRet _ _ = thenDo (execRet _ _) _
    rcases execRet_cases mid s with ⟨h, e⟩ | ⟨n, h, h1, e⟩ <;>
      rcases execRet_cases mid (s.withAside p d o) with ⟨h', e'⟩ | ⟨n', h', h1', e'⟩ <;> rw [e, e']
    · rfl
    · rw [sp, h] at h1'; exact absurd (congrArg Fin.val h1') (by simp)
    · rw [← sp, h'] at h1; exact absurd (congrArg Fin.val h1) (by simp)
    · have : n = n' := by have := congrArg Fin.val (h1.symm.trans h1'); simpa using this
      subst this
      rfl
  | call nnn =>
    simp only [emits, List.append_nil]
    change execCall _ _ = thenDo (execCall _ _) _
    unfold execCall State.push State.withAside
    dsimp only
    by_cases h : s.sp.val < 16
    · simp only [dif_pos h]; rfl
    · simp only [dif_neg h]; rfl
  | ldB x =>
    simp only [emits, List.append_nil]
    change execLdB _ _ = thenDo (execLdB _ _) _
    rcases execLdB_cases x s with ⟨h, e⟩ | ⟨h, e⟩ <;>
      rcases execLdB_cases x (s.withAside p d o) with ⟨h', e'⟩ | ⟨h', e'⟩ <;> rw [e, e'] <;>
      first | rfl | (exfalso; rw [effAddr] at h'; omega)
  | ldMemVx x =>
    simp only [emits, List.append_nil]
    change execLdMemVx _ _ = thenDo (execLdMemVx _ _) _
    rcases execLdMemVx_cases x s with ⟨h, e⟩ | ⟨h, e⟩ <;>
      rcases execLdMemVx_cases x (s.withAside p d o) with ⟨h', e'⟩ | ⟨h', e'⟩ <;> rw [e, e'] <;>
      first | rfl | (exfalso; rw [effAddr] at h'; omega)
  | ldVxMem x =>
    simp only [emits, List.append_nil]
    change execLdVxMem _ _ = thenDo (execLdVxMem _ _) _
    rcases execLdVxMem_cases x s with ⟨h, e⟩ | ⟨h, e⟩ <;>
      rcases execLdVxMem_cases x (s.withAside p d o) with ⟨h', e'⟩ | ⟨h', e'⟩ <;> rw [e, e'] <;>
      first
        | rfl
        | (exfalso; rw [effAddr] at h'; omega)
        | exact congrArg _ (setRegs_withAside _ _ _ _ _ _)
  | drw x y n =>
    simp only [emits, List.append_nil]
    change execDrw _ _ _ _ = thenDo (execDrw _ _ _ _) _
    rcases execDrw_cases x y n s with ⟨h0, h, e⟩ | ⟨h, e⟩ <;>
      rcases execDrw_cases x y n (s.withAside p d o) with ⟨h0', h', e'⟩ | ⟨h', e'⟩ <;> rw [e, e'] <;>
      simp only [effAddr] at h'
    · rfl
    · exact absurd h' (by rintro (h' | h'); exacts [h0 h', by omega])
    · exact absurd h (by rintro (h | h); exacts [h0' h, by omega])
    · rfl
  | seImm | sneImm | seReg | sneReg | skp | sknp =>
    simp only [emits, List.append_nil]
    exact congrArg _ (skipIf_withAside _ _ _ _ _)
  | addReg | sub | shr | subn | shl =>
    simp only [emits, List.append_nil]
    exact congrArg _ (setRegAndFlag_withAside _ _ _ _ _ _ _ _)
  | noHandler op => rfl
  | _ =>
    simp only [emits, List.append_nil]
    rfl

/-- The diagnostic events after an instruction: those before, and its own. -/
theorem exec_diags {i : Instr} {s t : State} (h : exec i s = .next t) : t.diags = s.diags ++ emits i s := by
  have e := exec_withAside i s s.phase s.diags s.shown
  rw [State.withAside_self, h, thenDo_of_next] at e
  have e := congrArg (fun r => match r with
    | .next (u : State) => u.diags
    | _ => []) e
  simpa [State.withAside] using e

end Sys2Proof.Machine
end

