-- ==== Sys2Proof/Laws/Decode.lean ====
section
/-! SUPPORT. The fields of a packed opcode: what the decoder reads back from each form of the encoder. -/

namespace Sys2Proof

theorem packXNN_toNat (f x : BitVec 4) (nn : Byte) :
    (packXNN f x nn).toNat = f.toNat * 4096 + x.toNat * 256 + nn.toNat := by
  have hn := nn.isLt
  have hx := x.isLt
  simp only [packXNN, BitVec.toNat_append]
  rw [← Nat.shiftLeft_add_eq_or_of_lt hx, ← Nat.shiftLeft_add_eq_or_of_lt hn]
  omega

theorem packXYN_toNat (f x y n : BitVec 4) :
    (packXYN f x y n).toNat = f.toNat * 4096 + x.toNat * 256 + y.toNat * 16 + n.toNat := by
  have hn := n.isLt
  have hx := x.isLt
  have hy := y.isLt
  simp only [packXYN, BitVec.toNat_append]
  rw [← Nat.shiftLeft_add_eq_or_of_lt hx, ← Nat.shiftLeft_add_eq_or_of_lt hy,
    ← Nat.shiftLeft_add_eq_or_of_lt hn]
  omega

theorem packNNN_toNat (f : BitVec 4) (nnn : BitVec 12) :
    (packNNN f nnn).toNat = f.toNat * 4096 + nnn.toNat := by
  have hn := nnn.isLt
  simp only [packNNN, BitVec.toNat_append]
  rw [← Nat.shiftLeft_add_eq_or_of_lt hn]
  omega

theorem packMid_toNat (f : BitVec 4) (mid : BitVec 8) (n : BitVec 4) :
    (packMid f mid n).toNat = f.toNat * 4096 + mid.toNat * 16 + n.toNat := by
  have hn := n.isLt
  have hm := mid.isLt
  simp only [packMid, BitVec.toNat_append]
  rw [← Nat.shiftLeft_add_eq_or_of_lt hm, ← Nat.shiftLeft_add_eq_or_of_lt hn]
  omega

theorem fieldF_toNat (op : Word) : (fieldF op).toNat = op.toNat / 4096 % 16 := by
  simp [fieldF, Nat.shiftRight_eq_div_pow]

theorem fieldX_val (op : Word) : (fieldX op).val = op.toNat / 256 % 16 := by
  simp [fieldX, Nat.shiftRight_eq_div_pow]

theorem fieldY_val (op : Word) : (fieldY op).val = op.toNat / 16 % 16 := by
  simp [fieldY, Nat.shiftRight_eq_div_pow]

theorem bitsY_toNat (op : Word) : (bitsY op).toNat = op.toNat / 16 % 16 := by
  simp [bitsY, Nat.shiftRight_eq_div_pow]

theorem fieldN_toNat (op : Word) : (fieldN op).toNat = op.toNat % 16 := by
  simp [fieldN]

theorem fieldNN_toNat (op : Word) : (fieldNN op).toNat = op.toNat % 256 := by
  simp [fieldNN]

theorem fieldNNN_toNat (op : Word) : (fieldNNN op).toNat = op.toNat % 4096 := by
  simp [fieldNNN]

theorem fieldMid_toNat (op : Word) : (fieldMid op).toNat = op.toNat / 16 % 256 := by
  simp [fieldMid, Nat.shiftRight_eq_div_pow]

@[simp] theorem regBits_toNat (r : Reg) : (regBits r).toNat = r.val := rfl

@[simp] theorem fieldF_packXNN (f x : BitVec 4) (nn : Byte) : fieldF (packXNN f x nn) = f := by
  apply BitVec.eq_of_toNat_eq
  rw [fieldF_toNat, packXNN_toNat]
  have := f.isLt
  have := x.isLt
  have := nn.isLt
  omega

@[simp] theorem fieldNN_packXNN (f x : BitVec 4) (nn : Byte) : fieldNN (packXNN f x nn) = nn := by
  apply BitVec.eq_of_toNat_eq
  rw [fieldNN_toNat, packXNN_toNat]
  have := f.isLt
  have := x.isLt
  have := nn.isLt
  omega

@[simp] theorem fieldX_packXNN (f : BitVec 4) (r : Reg) (nn : Byte) : fieldX (packXNN f (regBits r) nn) = r := by
  apply Fin.ext
  rw [fieldX_val, packXNN_toNat]
  simp only [regBits_toNat]
  have := f.isLt
  have := nn.isLt
  omega

@[simp] theorem fieldF_packXYN (f x y n : BitVec 4) : fieldF (packXYN f x y n) = f := by
  apply BitVec.eq_of_toNat_eq
  rw [fieldF_toNat, packXYN_toNat]
  have := f.isLt
  have := x.isLt
  have := y.isLt
  have := n.isLt
  omega

@[simp] theorem fieldN_packXYN (f x y n : BitVec 4) : fieldN (packXYN f x y n) = n := by
  apply BitVec.eq_of_toNat_eq
  rw [fieldN_toNat, packXYN_toNat]
  have := f.isLt
  have := x.isLt
  have := y.isLt
  have := n.isLt
  omega

@[simp] theorem bitsY_packXYN (f x y n : BitVec 4) : bitsY (packXYN f x y n) = y := by
  apply BitVec.eq_of_toNat_eq
  rw [bitsY_toNat, packXYN_toNat]
  have := f.isLt
  have := x.isLt
  have := y.isLt
  have := n.isLt
  omega

@[simp] theorem fieldX_packXYN (f : BitVec 4) (r : Reg) (y n : BitVec 4) : fieldX (packXYN f (regBits r) y n) = r := by
  apply Fin.ext
  rw [fieldX_val, packXYN_toNat]
  simp only [regBits_toNat]
  have := f.isLt
  have := y.isLt
  have := n.isLt
  omega

@[simp] theorem fieldY_packXYN (f x : BitVec 4) (r : Reg) (n : BitVec 4) : fieldY (packXYN f x (regBits r) n) = r := by
  apply Fin.ext
  rw [fieldY_val, packXYN_toNat]
  simp only [regBits_toNat]
  have := f.isLt
  have := x.isLt
  have := n.isLt
  omega

@[simp] theorem fieldF_packNNN (f : BitVec 4) (nnn : BitVec 12) : fieldF (packNNN f nnn) = f := by
  apply BitVec.eq_of_toNat_eq
  rw [fieldF_toNat, packNNN_toNat]
  have := f.isLt
  have := nnn.isLt
  omega

@[simp] theorem fieldNNN_packNNN (f : BitVec 4) (nnn : BitVec 12) : fieldNNN (packNNN f nnn) = nnn := by
  apply BitVec.eq_of_toNat_eq
  rw [fieldNNN_toNat, packNNN_toNat]
  have := f.isLt
  have := nnn.isLt
  omega

@[simp] theorem fieldF_packMid (f : BitVec 4) (mid : BitVec 8) (n : BitVec 4) : fieldF (packMid f mid n) = f := by
  apply BitVec.eq_of_toNat_eq
  rw [fieldF_toNat, packMid_toNat]
  have := f.isLt
  have := mid.isLt
  have := n.isLt
  omega

@[simp] theorem fieldN_packMid (f : BitVec 4) (mid : BitVec 8) (n : BitVec 4) : fieldN (packMid f mid n) = n := by
  apply BitVec.eq_of_toNat_eq
  rw [fieldN_toNat, packMid_toNat]
  have := f.isLt
  have := mid.isLt
  have := n.isLt
  omega

@[simp] theorem fieldMid_packMid (f : BitVec 4) (mid : BitVec 8) (n : BitVec 4) : fieldMid (packMid f mid n) = mid := by
  apply BitVec.eq_of_toNat_eq
  rw [fieldMid_toNat, packMid_toNat]
  have := f.isLt
  have := mid.isLt
  have := n.isLt
  omega

/-- The two bytes of an opcode give it back (20_memory.md R44). -/
@[simp] theorem opcodeOf_highByte_lowByte (op : Word) : opcodeOf (highByte op) (lowByte op) = op := by
  have hl : op.toNat / 2 ^ 0 % 2 ^ 8 < 2 ^ 8 := Nat.mod_lt _ (by decide)
  apply BitVec.eq_of_toNat_eq
  simp only [opcodeOf, highByte, lowByte, BitVec.toNat_append, BitVec.extractLsb'_toNat]
  simp only [Nat.shiftRight_eq_div_pow]
  rw [← Nat.shiftLeft_add_eq_or_of_lt hl]
  have := op.isLt
  omega

/-! ## The masks of the opcode map (30_encoding.md R66), as the fields they keep -/

theorem and_maskF (op : Word) : op &&& (0xF000 : Word) = packXYN (fieldF op) 0 0 0 := by
  apply BitVec.eq_of_getLsbD_eq
  intro j hj
  simp only [packXYN, fieldF, BitVec.getLsbD_append, BitVec.getLsbD_and, BitVec.getLsbD_extractLsb']
  interval_cases j <;> simp

theorem and_maskFN (op : Word) : op &&& (0xF00F : Word) = packXYN (fieldF op) 0 0 (fieldN op) := by
  apply BitVec.eq_of_getLsbD_eq
  intro j hj
  simp only [packXYN, fieldF, fieldN, BitVec.getLsbD_append, BitVec.getLsbD_and,
    BitVec.getLsbD_extractLsb']
  interval_cases j <;> simp

theorem and_maskFNN (op : Word) : op &&& (0xF0FF : Word) = packXNN (fieldF op) 0 (fieldNN op) := by
  apply BitVec.eq_of_getLsbD_eq
  intro j hj
  simp only [packXNN, fieldF, fieldNN, BitVec.getLsbD_append, BitVec.getLsbD_and,
    BitVec.getLsbD_extractLsb']
  interval_cases j <;> simp

/-- `NN` ends in `N`. -/
theorem fieldN_of_fieldNN (op : Word) : fieldN op = (fieldNN op).setWidth 4 := by
  apply BitVec.eq_of_toNat_eq
  rw [fieldN_toNat, BitVec.toNat_setWidth, fieldNN_toNat]
  omega

end Sys2Proof
end

