-- ==== Sys2Proof/Laws/Display.lean ====
section
/-! SUPPORT. The pixels: what a flip and one sprite bit do to each of them. -/

namespace Sys2Proof.Machine

@[simp] theorem Display.blank_pixel (y : Fin 32) (x : Fin 64) : Display.blank.pixel y x = false := by
  simp [Display.blank, Display.pixel]

/-- A flip changes its pixel and no other. -/
theorem Display.flip_pixel (d : Display) (y y' : Fin 32) (x x' : Fin 64) :
    (d.flip y x).pixel y' x' = if y = y' ∧ x = x' then !d.pixel y' x' else d.pixel y' x' := by
  by_cases hy : y = y'
  · subst hy
    by_cases hx : x = x'
    · subst hx
      simp [Display.flip, Display.pixel]
    · have hx' : x.val ≠ x'.val := fun h => hx (Fin.ext h)
      simp [Display.flip, Display.pixel, hx, Vector.getElem_set_ne _ _ hx']
  · have hy' : y.val ≠ y'.val := fun h => hy (Fin.ext h)
    simp [Display.flip, Display.pixel, hy, Vector.getElem_set_ne _ _ hy']

/-- Two displays with the same pixels are the same. -/
theorem Display.ext {d e : Display} (h : ∀ y x, d.pixel y x = e.pixel y x) : d = e := by
  apply Vector.ext
  intro y hy
  apply Vector.ext
  intro x hx
  exact h ⟨y, hy⟩ ⟨x, hx⟩

/-- One sprite bit: a 1 bit flips its pixel, a 0 bit leaves the display alone (44_display.md R161). -/
theorem drawBit_pixel (x0 y0 : Byte) (r : Nat) (b : Byte) (p : Canvas) (c : Nat) (y : Fin 32) (x : Fin 64) :
    (drawBit x0 y0 r b p c).disp.pixel y x =
      if spriteBit b c = true ∧ spriteRow y0 r = y ∧ spriteColumn x0 c = x then !p.disp.pixel y x
      else p.disp.pixel y x := by
  unfold drawBit
  by_cases h : spriteBit b c = true <;> simp [h, Display.flip_pixel]

/-- One sprite bit: a hit stays, and a 1 bit on a set pixel makes one (44_display.md R161). -/
theorem drawBit_hit (x0 y0 : Byte) (r : Nat) (b : Byte) (p : Canvas) (c : Nat) :
    (drawBit x0 y0 r b p c).hit =
      (p.hit || spriteBit b c && p.disp.pixel (spriteRow y0 r) (spriteColumn x0 c)) := by
  unfold drawBit
  by_cases h : spriteBit b c = true <;> simp [h]

/-- The bits `cs` of one sprite byte, at different columns: each 1 bit flips its pixel, and a 1 bit on a set pixel
makes a hit (44_display.md R161). -/
theorem foldl_drawBit (x0 y0 : Byte) (r : Nat) (b : Byte) (cs : List Nat)
    (hd : cs.Pairwise fun c d => spriteColumn x0 c ≠ spriteColumn x0 d) (p : Canvas) (y : Fin 32) (x : Fin 64) :
    let q := cs.foldl (drawBit x0 y0 r b) p
    ((∃ c ∈ cs, spriteBit b c = true ∧ spriteRow y0 r = y ∧ spriteColumn x0 c = x) →
      q.disp.pixel y x = !p.disp.pixel y x) ∧
    ((¬∃ c ∈ cs, spriteBit b c = true ∧ spriteRow y0 r = y ∧ spriteColumn x0 c = x) →
      q.disp.pixel y x = p.disp.pixel y x) ∧
    (q.hit = true ↔ p.hit = true ∨ ∃ c ∈ cs, spriteBit b c = true ∧
      p.disp.pixel (spriteRow y0 r) (spriteColumn x0 c) = true) := by
  induction cs generalizing p with
  | nil => simp
  | cons c cs ih =>
    rw [List.pairwise_cons] at hd
    obtain ⟨i1, i2, i3⟩ := ih hd.2 (drawBit x0 y0 r b p c)
    simp only [List.foldl_cons]
    refine ⟨?_, ?_, ?_⟩
    · rintro ⟨d, hd', hb, hr, hc⟩
      rcases List.mem_cons.1 hd' with rfl | hm
      · rw [i2, drawBit_pixel, if_pos ⟨hb, hr, hc⟩]
        rintro ⟨e, he, -, -, hce⟩
        exact hd.1 e he (hc.trans hce.symm)
      · rw [i1 ⟨d, hm, hb, hr, hc⟩, drawBit_pixel, if_neg]
        rintro ⟨-, -, hce⟩
        exact hd.1 d hm (hce.trans hc.symm)
    · intro hn
      rw [i2, drawBit_pixel, if_neg]
      · rintro ⟨hb, hr, hc⟩; exact hn ⟨c, by simp, hb, hr, hc⟩
      · rintro ⟨d, hm, h⟩; exact hn ⟨d, by simp [hm], h⟩
    · rw [i3, drawBit_hit]
      simp only [Bool.or_eq_true, Bool.and_eq_true, List.mem_cons, exists_eq_or_imp, or_assoc]
      apply or_congr_right
      apply or_congr_right
      apply exists_congr
      intro d
      apply and_congr_right
      intro hm
      apply and_congr_right
      intro hb
      rw [drawBit_pixel, if_neg]
      rintro ⟨-, -, h⟩
      exact hd.1 d hm h
/-- The 8 bits of a sprite byte fall on different columns (44_display.md R161). -/
theorem spriteColumn_pairwise (x0 : Byte) : (List.range 8).Pairwise fun c d => spriteColumn x0 c ≠ spriteColumn x0 d := by
  have : (List.range 8).Pairwise fun c d => c ≠ d ∧ c < 8 ∧ d < 8 := by decide
  refine this.imp ?_
  rintro c d ⟨h, h1, h2⟩ he
  have := congrArg Fin.val he
  simp only [spriteColumn, Fin.ofNat] at this
  omega

/-- The whole draw: exactly the pixels under a 1 bit are flipped, and there is a hit exactly when one of them was
set (44_display.md R161). -/
theorem drawBytes_spec (x0 y0 : Byte) (bytes : List Byte) :
    ∀ (r : Nat) (_ : bytes.length ≤ 32) (p : Canvas) (y : Fin 32) (x : Fin 64),
    let q := drawBytes x0 y0 r bytes p
    let cov := fun y x => ∃ (k : Nat) (h : k < bytes.length), ∃ c < 8,
      spriteBit bytes[k] c = true ∧ spriteRow y0 (r + k) = y ∧ spriteColumn x0 c = x
    (cov y x → q.disp.pixel y x = !p.disp.pixel y x) ∧
    (¬ cov y x → q.disp.pixel y x = p.disp.pixel y x) ∧
    (q.hit = true ↔ p.hit = true ∨ ∃ y x, cov y x ∧ p.disp.pixel y x = true) := by
  induction bytes with
  | nil => intro r hl p y x; simp [drawBytes]
  | cons b bs ih =>
    intro r hl p y x
    simp only [List.length_cons] at hl
    obtain ⟨j1, j2, j3⟩ := ih (r+1) (by omega) (drawByte x0 y0 r b p) y x
    have hf := fun y x => foldl_drawBit x0 y0 r b (List.range 8) (spriteColumn_pairwise x0) p y x
    have hrow : ∀ k, k < bs.length → spriteRow y0 (r + 1 + k) ≠ spriteRow y0 r := by
      intro k hk he
      have := congrArg Fin.val he
      simp only [spriteRow, Fin.ofNat] at this
      omega
    simp only [drawBytes]
    obtain ⟨f1, f2, f3⟩ := hf y x
    rw [show (List.range 8).foldl (drawBit x0 y0 r b) p = drawByte x0 y0 r b p from rfl] at f1 f2 f3
    refine ⟨?_, ?_, ?_⟩
    · rintro ⟨k, hk, c, hc, hb, hr, hx⟩
      rcases k with _ | k
      · rw [j2, f1 ⟨c, by simpa using hc, hb, hr, hx⟩]
        rintro ⟨k, hk, c', _, _, hr', _⟩
        exact hrow k hk (hr'.trans hr.symm)
      · simp only [List.length_cons, Nat.add_lt_add_iff_right] at hk
        rw [j1 ⟨k, hk, c, hc, by simpa using hb, by rw [← hr]; congr 1; omega, hx⟩, f2]
        rintro ⟨c', _, _, hr', _⟩
        apply hrow k hk
        rw [show r + 1 + k = r + (k+1) by omega, hr, hr']
    · intro hn
      rw [j2, f2]
      · rintro ⟨c, hc, hb, hr, hx⟩; exact hn ⟨0, by simp, c, by simpa using hc, hb, hr, hx⟩
      · rintro ⟨k, hk, c, hc, hb, hr, hx⟩; exact hn ⟨k+1, by simpa using hk, c, hc, by simpa using hb, by rw [← hr]; congr 1; omega, hx⟩
    · rw [j3, f3, or_assoc]
      apply or_congr_right
      constructor
      · rintro (⟨c, hc, hb, hp⟩ | ⟨y', x', ⟨k, hk, c, hc, hb, hr, hx⟩, hp⟩)
        · exact ⟨_, _, ⟨0, by simp, c, by simpa using hc, hb, rfl, rfl⟩, hp⟩
        · refine ⟨y', x', ⟨k+1, by simpa using hk, c, hc, by simpa using hb, by rw [← hr]; congr 1; omega, hx⟩, ?_⟩
          rw [← hp]; symm
          apply (hf y' x').2.1
          rintro ⟨c', _, _, hr', _⟩
          exact hrow k hk (hr.trans hr'.symm)
      · rintro ⟨y', x', ⟨k, hk, c, hc, hb, hr, hx⟩, hp⟩
        rcases k with _ | k
        · left; exact ⟨c, by simpa using hc, hb, by subst hr hx; simpa using hp⟩
        · right
          simp only [List.length_cons, Nat.add_lt_add_iff_right] at hk
          have hr2 : spriteRow y0 (r + 1 + k) = y' := by rw [← hr]; congr 1; omega
          refine ⟨y', x', ⟨k, hk, c, hc, by simpa using hb, hr2, hx⟩, ?_⟩
          rw [← hp]
          apply (hf y' x').2.1
          rintro ⟨c', _, _, hr', _⟩
          exact hrow k hk (hr2.trans hr'.symm)

end Sys2Proof.Machine
end

