-- ==== Sys2Proof/Laws/PerInstr.lean ====
section
/-! SUPPORT. Per-instruction families (LAWS.json). -/

/-! The encoder writes each instruction with a word of its own row of the opcode map (30_encoding.md R66). -/

namespace Sys2Proof.Laws.EncodesRow

/-- The word of a well-formed instruction matches the instruction's row. -/
def Statement (i : Instr) : Prop := i.wf = true → i.row.takes (encode i) = true

theorem cls (mid : BitVec 8) : Statement (.cls mid) := by
  intro _
  simp only [Instr.row, Row.takes, and_maskFN, encode]
  simp
  rfl

theorem ret (mid : BitVec 8) : Statement (.ret mid) := by
  intro _
  simp only [Instr.row, Row.takes, and_maskFN, encode]
  simp
  rfl

theorem jp (nnn : BitVec 12) : Statement (.jp nnn) := by
  intro _
  simp only [Instr.row, Row.takes, and_maskF, encode]
  simp
  rfl

theorem call (nnn : BitVec 12) : Statement (.call nnn) := by
  intro _
  simp only [Instr.row, Row.takes, and_maskF, encode]
  simp
  rfl

theorem seImm (x : Reg) (nn : Byte) : Statement (.seImm x nn) := by
  intro _
  simp only [Instr.row, Row.takes, and_maskF, encode]
  simp
  rfl

theorem sneImm (x : Reg) (nn : Byte) : Statement (.sneImm x nn) := by
  intro _
  simp only [Instr.row, Row.takes, and_maskF, encode]
  simp
  rfl

theorem seReg (x y : Reg) (ign : BitVec 4) : Statement (.seReg x y ign) := by
  intro _
  simp only [Instr.row, Row.takes, and_maskF, encode]
  simp
  rfl

theorem ldImm (x : Reg) (nn : Byte) : Statement (.ldImm x nn) := by
  intro _
  simp only [Instr.row, Row.takes, and_maskF, encode]
  simp
  rfl

theorem addImm (x : Reg) (nn : Byte) : Statement (.addImm x nn) := by
  intro _
  simp only [Instr.row, Row.takes, and_maskF, encode]
  simp
  rfl

theorem ldReg (x y : Reg) : Statement (.ldReg x y) := by
  intro _
  simp only [Instr.row, Row.takes, and_maskFN, encode]
  simp
  rfl

theorem or (x y : Reg) : Statement (.or x y) := by
  intro _
  simp only [Instr.row, Row.takes, and_maskFN, encode]
  simp
  rfl

theorem and (x y : Reg) : Statement (.and x y) := by
  intro _
  simp only [Instr.row, Row.takes, and_maskFN, encode]
  simp
  rfl

theorem xor (x y : Reg) : Statement (.xor x y) := by
  intro _
  simp only [Instr.row, Row.takes, and_maskFN, encode]
  simp
  rfl

theorem addReg (x y : Reg) : Statement (.addReg x y) := by
  intro _
  simp only [Instr.row, Row.takes, and_maskFN, encode]
  simp
  rfl

theorem sub (x y : Reg) : Statement (.sub x y) := by
  intro _
  simp only [Instr.row, Row.takes, and_maskFN, encode]
  simp
  rfl

theorem shr (x y : Reg) : Statement (.shr x y) := by
  intro _
  simp only [Instr.row, Row.takes, and_maskFN, encode]
  simp
  rfl

theorem subn (x y : Reg) : Statement (.subn x y) := by
  intro _
  simp only [Instr.row, Row.takes, and_maskFN, encode]
  simp
  rfl

theorem shl (x y : Reg) : Statement (.shl x y) := by
  intro _
  simp only [Instr.row, Row.takes, and_maskFN, encode]
  simp
  rfl

theorem sneReg (x y : Reg) (ign : BitVec 4) : Statement (.sneReg x y ign) := by
  intro _
  simp only [Instr.row, Row.takes, and_maskF, encode]
  simp
  rfl

theorem ldI (nnn : BitVec 12) : Statement (.ldI nnn) := by
  intro _
  simp only [Instr.row, Row.takes, and_maskF, encode]
  simp
  rfl

theorem jpV0 (nnn : BitVec 12) : Statement (.jpV0 nnn) := by
  intro _
  simp only [Instr.row, Row.takes, and_maskF, encode]
  simp
  rfl

theorem rnd (x : Reg) (nn : Byte) : Statement (.rnd x nn) := by
  intro _
  simp only [Instr.row, Row.takes, and_maskF, encode]
  simp
  rfl

theorem drw (x y : Reg) (n : BitVec 4) : Statement (.drw x y n) := by
  intro _
  simp only [Instr.row, Row.takes, and_maskF, encode]
  simp
  rfl

theorem skp (x : Reg) (ign : BitVec 4) : Statement (.skp x ign) := by
  intro _
  simp only [Instr.row, Row.takes, and_maskFN, encode]
  simp
  rfl

theorem sknp (x : Reg) (ign : BitVec 4) : Statement (.sknp x ign) := by
  intro _
  simp only [Instr.row, Row.takes, and_maskFN, encode]
  simp
  rfl

theorem ldVxDt (x : Reg) : Statement (.ldVxDt x) := by
  intro _
  simp only [Instr.row, Row.takes, and_maskFNN, encode]
  simp
  rfl

theorem ldVxK (x : Reg) : Statement (.ldVxK x) := by
  intro _
  simp only [Instr.row, Row.takes, and_maskFNN, encode]
  simp
  rfl

theorem ldDtVx (x : Reg) : Statement (.ldDtVx x) := by
  intro _
  simp only [Instr.row, Row.takes, and_maskFNN, encode]
  simp
  rfl

theorem ldStVx (x : Reg) : Statement (.ldStVx x) := by
  intro _
  simp only [Instr.row, Row.takes, and_maskFNN, encode]
  simp
  rfl

theorem addIVx (x : Reg) : Statement (.addIVx x) := by
  intro _
  simp only [Instr.row, Row.takes, and_maskFNN, encode]
  simp
  rfl

theorem ldF (x : Reg) : Statement (.ldF x) := by
  intro _
  simp only [Instr.row, Row.takes, and_maskFNN, encode]
  simp
  rfl

theorem ldB (x : Reg) : Statement (.ldB x) := by
  intro _
  simp only [Instr.row, Row.takes, and_maskFNN, encode]
  simp
  rfl

theorem ldMemVx (x : Reg) : Statement (.ldMemVx x) := by
  intro _
  simp only [Instr.row, Row.takes, and_maskFNN, encode]
  simp
  rfl

theorem ldVxMem (x : Reg) : Statement (.ldVxMem x) := by
  intro _
  simp only [Instr.row, Row.takes, and_maskFNN, encode]
  simp
  rfl

theorem noHandler (op : Word) : Statement (.noHandler op) := by
  intro _
  simp [Instr.row, Row.takes]

end Sys2Proof.Laws.EncodesRow
end

