-- ==== Sys2Proof/Tests/Slice0.lean ====
section
/-! SUPPORT. The model's own tests, one step or one decode each. The expected results are those of
spec/95_test_vectors.md (the vector is named in each comment) or are worked out from the rule named, never
taken from the model. At the end stand the witnesses: states and operands that meet the hypotheses of the
statements of Certificates/Slice0/Obligations.lean. -/

namespace Sys2Proof.Tests

open Sys2Proof Sys2Proof.Machine

/-! ## Helpers -/

/-- The state after reset with some registers set. -/
def regs (l : List (Reg × Byte)) : State :=
  l.foldl (fun s p => s.setReg p.1 p.2) State.reset

/-- What `f` shows of the next state after one step that runs the opcode `op`; none when the step answers no
next state. -/
def after {α : Type} (op : Nat) (s : State) (f : State → α) : Option α :=
  match step (s.withFetchWord 16 op) with
  | .next t => some (f t)
  | .fault _ => none
  | .refused _ => none

/-- What `f` shows of the next state after one step. -/
def shows {α : Type} (s : State) (f : State → α) : Option α :=
  match step s with
  | .next t => some (f t)
  | .fault _ => none
  | .refused _ => none

/-! ## WellFormed: the one check (30_encoding.md R68) -/

/-- 00E0 is assigned, so it is no diagnostic no-op. -/
theorem test_wf_refuses_noHandler_of_an_assigned_word : (Instr.noHandler 0x00E0).wf = false := by decide

/-- 8XYF is unassigned. -/
theorem test_wf_accepts_noHandler_of_an_unassigned_word : (Instr.noHandler 0x800F).wf = true := by decide

/-! ## Decode: a word of every row, written out from the fields of R61 and the patterns of R66 -/

/-- 0000 0000 1110 0000: F = 0, middle byte 0x0E, N = 0. -/
theorem test_decode_cls : decode 0x00E0 = .cls 0x0E := by decide
/-- 0000 0001 0010 0000, an alias (R67). -/
theorem test_decode_cls_alias : decode 0x0120 = .cls 0x12 := by decide
/-- 0000 0000 1110 1110. -/
theorem test_decode_ret : decode 0x00EE = .ret 0x0E := by decide
theorem test_decode_jp : decode 0x1ABC = .jp 0xABC := by decide
theorem test_decode_call : decode 0x2DEF = .call 0xDEF := by decide
theorem test_decode_seImm : decode 0x3A5C = .seImm 0xA 0x5C := by decide
theorem test_decode_sneImm : decode 0x4B6D = .sneImm 0xB 0x6D := by decide
theorem test_decode_seReg : decode 0x5AB0 = .seReg 0xA 0xB 0 := by decide
theorem test_decode_ldImm : decode 0x6C7E = .ldImm 0xC 0x7E := by decide
theorem test_decode_addImm : decode 0x7D8F = .addImm 0xD 0x8F := by decide
theorem test_decode_ldReg : decode 0x8120 = .ldReg 1 2 := by decide
theorem test_decode_or : decode 0x8231 = .or 2 3 := by decide
theorem test_decode_and : decode 0x8342 = .and 3 4 := by decide
theorem test_decode_xor : decode 0x8453 = .xor 4 5 := by decide
theorem test_decode_addReg : decode 0x8564 = .addReg 5 6 := by decide
theorem test_decode_sub : decode 0x8675 = .sub 6 7 := by decide
theorem test_decode_shr : decode 0x8786 = .shr 7 8 := by decide
theorem test_decode_subn : decode 0x8897 = .subn 8 9 := by decide
theorem test_decode_shl : decode 0x89AE = .shl 9 0xA := by decide
theorem test_decode_sneReg : decode 0x9AB0 = .sneReg 0xA 0xB 0 := by decide
theorem test_decode_ldI : decode 0xA123 = .ldI 0x123 := by decide
theorem test_decode_jpV0 : decode 0xB456 = .jpV0 0x456 := by decide
theorem test_decode_rnd : decode 0xC30F = .rnd 3 0x0F := by decide
theorem test_decode_drw : decode 0xD125 = .drw 1 2 5 := by decide
theorem test_decode_skp : decode 0xE19E = .skp 1 9 := by decide
theorem test_decode_sknp : decode 0xE2A1 = .sknp 2 0xA := by decide
theorem test_decode_ldVxDt : decode 0xF107 = .ldVxDt 1 := by decide
theorem test_decode_ldVxK : decode 0xF20A = .ldVxK 2 := by decide
theorem test_decode_ldDtVx : decode 0xF315 = .ldDtVx 3 := by decide
theorem test_decode_ldStVx : decode 0xF418 = .ldStVx 4 := by decide
theorem test_decode_addIVx : decode 0xF51E = .addIVx 5 := by decide
theorem test_decode_ldF : decode 0xF629 = .ldF 6 := by decide
theorem test_decode_ldB : decode 0xF733 = .ldB 7 := by decide
theorem test_decode_ldMemVx : decode 0xF855 = .ldMemVx 8 := by decide
theorem test_decode_ldVxMem : decode 0xF965 = .ldVxMem 9 := by decide
/-- Families 8 and F leave words unassigned (R68). -/
theorem test_decode_noHandler :
    decode 0x8008 = .noHandler 0x8008 ∧ decode 0xF0FF = .noHandler 0xF0FF := by decide

/-- The bytes of an opcode: high byte first (20_memory.md R44); one byte is no opcode. -/
theorem test_decodeBytes :
    (match decodeBytes [0x60, 0x05, 0x61] with
      | .ok p => p == (.ldImm 0 5, [0x61])
      | .error _ => false) = true ∧
    (match decodeBytes [0x60] with
      | .ok _ => false
      | .error e => e == .truncated) = true := by decide

/-- The encoder writes the word of R66's row. -/
theorem test_encode : encode (.shr 4 5) = 0x8456 ∧ encodeBytes (.ldB 5) = [0xF5, 0x33] := by decide

/-! ## The cycle (95_test_vectors.md L2.1) -/

/-- L2.1 1. -/
theorem test_noHandler :
    after 0x8008 State.reset (fun t => (t.pc, t.diags)) =
      some (0x202, [.unknownOpcode 0x200 0x8008]) := by decide

/-- L2.1 7. -/
theorem test_pc_overflow_resets :
    after 0x6007 { State.reset with pc := 0x1000 } (fun t => (t.reg 0, t.pc, t.diags)) =
      some (7, 0x202, [.pcReset 0x1000]) := by decide

/-- L2.1 8. -/
theorem test_pc_overflow_is_fatal :
    shows { State.reset with pc := 0x1000, phase := .slots 1, cfg.pcPolicy := .fatal }
      (fun t => (t.pc, t.halt)) = some (0x1000, some ⟨.pcOutOfRange, 0x1000, none⟩) := by decide

/-- L2.1 11: an odd fetch. -/
theorem test_odd_pc_fetches :
    after 0x6A05 { State.reset with pc := 0x201 } (fun t => (t.reg 0xA, t.pc)) = some (5, 0x203) := by
  decide

/-- L2.1 12: the diagnostic comes first, then the fault at 0x200. -/
theorem test_pc_reset_then_fault :
    after 0x00EE { State.reset with pc := 0x1000 } (fun t => (t.diags, t.halt)) =
      some ([.pcReset 0x1000], some ⟨.stackUnderflow, 0x200, some 0x00EE⟩) := by decide

/-- L2.1 13. -/
theorem test_waiting_slot_is_skipped :
    shows { State.reset with wait := some 2, phase := .slots 3 } (fun t => (t.pc, t.wait, t.phase)) =
      some (0x200, some 2, .slots 2) := by decide

/-! ## Control flow (L2.2) -/

/-- L2.2 1. -/
theorem test_ret :
    after 0x00EE { State.reset with pc := 0x300, sp := 2, stack := State.reset.stack.set 1 0x456 }
      (fun t => (t.pc, t.sp, t.stack[1])) = some (0x456, 1, 0x456) := by decide

/-- L2.2 2. -/
theorem test_ret_underflow :
    after 0x00EE { State.reset with pc := 0x300 } (fun t => (t.pc, t.sp, t.halt, t.phase)) =
      some (0x300, 0, some ⟨.stackUnderflow, 0x300, some 0x00EE⟩, .input) := by decide

/-- L2.2 3. -/
theorem test_jp : after 0x1234 State.reset (·.pc) = some 0x234 := by decide

/-- L2.2 7. -/
theorem test_call :
    after 0x2400 { State.reset with sp := 15 } (fun t => (t.pc, t.sp, t.stack[15])) =
      some (0x400, 16, 0x202) := by decide

/-- L2.2 8. -/
theorem test_call_overflow :
    after 0x2400 { State.reset with sp := 16 } (fun t => (t.pc, t.sp, t.halt)) =
      some (0x200, 16, some ⟨.stackOverflow, 0x200, some 0x2400⟩) := by decide

/-- L2.2 10 and 11. -/
theorem test_seImm :
    after 0x3310 (regs [(3, 0x10)]) (·.pc) = some 0x204 ∧
    after 0x3310 (regs [(3, 0x11)]) (·.pc) = some 0x202 := by decide

/-- L2.2 14 and 15. -/
theorem test_sneImm :
    after 0x4310 (regs [(3, 0x11)]) (·.pc) = some 0x204 ∧
    after 0x4310 (regs [(3, 0x10)]) (·.pc) = some 0x202 := by decide

/-- L2.2 16 and 17. -/
theorem test_seReg :
    after 0x5120 (regs [(1, 7), (2, 7)]) (·.pc) = some 0x204 ∧
    after 0x5120 (regs [(1, 7), (2, 8)]) (·.pc) = some 0x202 := by decide

/-- L2.2 21 (an alias) and 20. -/
theorem test_sneReg :
    after 0x912F (regs [(1, 7), (2, 8)]) (·.pc) = some 0x204 ∧
    after 0x9770 State.reset (·.pc) = some 0x202 := by decide

/-- L2.2 23 (V0, not V1) and 24. -/
theorem test_jpV0 :
    after 0xB123 (regs [(0, 1), (1, 9)]) (·.pc) = some 0x124 ∧
    after 0xBFFF (regs [(0, 0xFF)]) (·.pc) = some 0x10FE := by decide

/-! ## Registers and ALU (L2.3) -/

/-- L2.3 1. -/
theorem test_ldImm :
    after 0x6A42 (regs [(vf, 0xAA)]) (fun t => (t.reg 0xA, t.reg vf, t.pc)) =
      some (0x42, 0xAA, 0x202) := by decide

/-- L2.3 4: the carry is lost, `VF` keeps its value. -/
theorem test_addImm :
    after 0x7201 (regs [(2, 0xFF), (vf, 0xAA)]) (fun t => (t.reg 2, t.reg vf)) = some (0, 0xAA) := by
  decide

/-- L2.3 5. -/
theorem test_ldReg :
    after 0x8010 (regs [(1, 0x3C)]) (fun t => (t.reg 0, t.reg 1)) = some (0x3C, 0x3C) := by decide

/-- L2.3 6. -/
theorem test_or :
    after 0x8011 (regs [(0, 0x0F), (1, 0xF0), (vf, 0xAA)]) (fun t => (t.reg 0, t.reg vf)) =
      some (0xFF, 0xAA) := by decide

/-- L2.3 7. -/
theorem test_and :
    after 0x8012 (regs [(0, 0x3C), (1, 0x0F), (vf, 0xAA)]) (fun t => (t.reg 0, t.reg vf)) =
      some (0x0C, 0xAA) := by decide

/-- L2.3 8. -/
theorem test_xor :
    after 0x8013 (regs [(0, 0x3C), (1, 0x0F), (vf, 0xAA)]) (fun t => (t.reg 0, t.reg vf)) =
      some (0x33, 0xAA) := by decide

/-- §8 property 1's table: FF + FF. -/
theorem test_addReg :
    after 0x8014 (regs [(0, 0xFF), (1, 0xFF)]) (fun t => (t.reg 0, t.reg vf)) = some (0xFE, 1) := by
  decide

/-- L2.3 12: with `X = F` the carry remains. -/
theorem test_addReg_into_vf :
    after 0x8F14 (regs [(vf, 0x10), (1, 0xF5)]) (·.reg vf) = some 1 := by decide

/-- §8 property 2's table: 3 - 3 and 0 - 1. -/
theorem test_sub :
    after 0x8015 (regs [(0, 3), (1, 3)]) (fun t => (t.reg 0, t.reg vf)) = some (0, 0) ∧
    after 0x8015 (regs [(1, 1), (vf, 0xAA)]) (fun t => (t.reg 0, t.reg vf)) = some (0xFF, 0) := by decide

/-- L2.3 13: with `X = F` the write order decides. -/
theorem test_sub_into_vf :
    after 0x8F15 (regs [(vf, 9), (1, 3)]) (·.reg vf) = some 6 ∧
    after 0x8F15 { regs [(vf, 9), (1, 3)] with cfg.vfOrder := .flagLast } (·.reg vf) = some 1 := by decide

/-- L2.3 16. -/
theorem test_shr :
    after 0x8406 (regs [(4, 0xFF)]) (fun t => (t.reg 4, t.reg vf)) = some (0x7F, 1) := by decide

/-- L2.3 17. -/
theorem test_shr_into_vf :
    after 0x8F06 (regs [(vf, 6)]) (·.reg vf) = some 3 ∧
    after 0x8F06 { regs [(vf, 6)] with cfg.vfOrder := .flagLast } (·.reg vf) = some 0 := by decide

/-- L2.3 18 and 19. -/
theorem test_subn :
    after 0x8017 (regs [(0, 3), (1, 8)]) (fun t => (t.reg 0, t.reg vf)) = some (5, 1) ∧
    after 0x8017 (regs [(0, 1)]) (fun t => (t.reg 0, t.reg vf)) = some (0xFF, 0) := by decide

/-- L2.3 21. -/
theorem test_subn_into_vf :
    after 0x8F17 (regs [(vf, 2), (1, 9)]) (·.reg vf) = some 7 ∧
    after 0x8F17 { regs [(vf, 2), (1, 9)] with cfg.vfOrder := .flagLast } (·.reg vf) = some 1 := by decide

/-- L2.3 22 and 23. -/
theorem test_shl :
    after 0x840E (regs [(4, 0x81)]) (fun t => (t.reg 4, t.reg vf)) = some (2, 1) ∧
    after 0x840E (regs [(4, 0x7F)]) (fun t => (t.reg 4, t.reg vf)) = some (0xFE, 0) := by decide

/-- L2.3 24. -/
theorem test_shl_into_vf :
    after 0x8F0E (regs [(vf, 0x81)]) (·.reg vf) = some 2 ∧
    after 0x8F0E { regs [(vf, 0x81)] with cfg.vfOrder := .flagLast } (·.reg vf) = some 1 := by decide

/-- L2.3 25. -/
theorem test_rnd_from_the_port :
    after 0xC30F { State.reset with rndIn := [0xA7, 1] } (fun t => (t.reg 3, t.rndIn, t.draws)) =
      some (7, [1], 1) := by decide

/-- L2.3 26, for every free draw: no byte on the port. -/
theorem test_rnd_free_draw : after 0xCFFF State.reset (·.reg vf) = some (Config.rnd 0 &&& 0xFF) := rfl

/-! ## Index and memory (L2.4) -/

/-- L2.4 1. -/
theorem test_ldI : after 0xA123 State.reset (·.i) = some 0x123 := by decide

/-- L2.4 3 and 4. -/
theorem test_addIVx :
    after 0xF01E { regs [(0, 1)] with i := 0xFFF } (fun t => (t.i, t.halt)) = some (0x1000, none) ∧
    after 0xF01E { regs [(0, 2)] with i := 0xFFFF } (·.i) = some 1 := by decide

/-- L2.4 6 and 8. -/
theorem test_ldF :
    after 0xF029 (regs [(0, 0xA)]) (·.i) = some 0x82 ∧
    after 0xF029 (regs [(0, 0x10)]) (·.i) = some 0xA0 := by decide

/-- L2.4 13. -/
theorem test_ldB :
    after 0xF533 { regs [(5, 0x9D)] with i := 0xFFD }
      (fun t => (t.readByte 0xFFD, t.readByte 0xFFE, t.readByte 0xFFF, t.i)) =
      some (1, 5, 7, 0xFFD) := by decide

/-- L2.4 14. -/
theorem test_ldB_fault :
    after 0xF533 { regs [(5, 0x9D)] with i := 0xFFE }
      (fun t => (t.readByte 0xFFE, t.readByte 0xFFF, t.pc, t.halt)) =
      some (0, 0, 0x200, some ⟨.memoryBound, 0x200, some 0xF533⟩) := by decide

/-- L2.4 15: and the byte after the range stays. -/
theorem test_ldMemVx :
    after 0xF255 { regs [(0, 1), (1, 2), (2, 3), (3, 4)] with i := 0x400 }
      (fun t => (t.readByte 0x400, t.readByte 0x401, t.readByte 0x402, t.readByte 0x403, t.i)) =
      some (1, 2, 3, 0, 0x400) := by decide

/-- L2.4 18. -/
theorem test_ldMemVx_fault :
    after 0xFF55 { regs [(0, 1)] with i := 0xFF1 } (fun t => (t.readByte 0xFF1, t.halt)) =
      some (0, some ⟨.memoryBound, 0x200, some 0xFF55⟩) := by decide

/-- L2.4 21, on the font's first glyph (10_state.md R33): and `V3` stays. -/
theorem test_ldVxMem :
    after 0xF265 { regs [(3, 9)] with i := 0x50 } (fun t => (t.reg 0, t.reg 1, t.reg 2, t.reg 3, t.i)) =
      some (0xF0, 0x90, 0x90, 9, 0x50) := by decide

/-- L2.4 20: the check does not wrap. -/
theorem test_ldVxMem_fault :
    after 0xF065 { regs [(0, 9)] with i := 0xFFFF } (fun t => (t.reg 0, t.halt)) =
      some (9, some ⟨.memoryBound, 0x200, some 0xF065⟩) := by decide

/-! ## Display (L2.5) -/

/-- L2.5 1. -/
theorem test_cls :
    after 0x00E0 { regs [(vf, 5)] with disp := State.reset.disp.flip 3 4 }
      (fun t => (t.disp.pixel 3 4, t.reg vf)) = some (false, 5) := by decide

/-- L2.5 4: horizontal wrap; the 0 bits light nothing. -/
theorem test_drw_wraps :
    after 0xD011 { regs [(0, 62), (1, 31)] with i := 0x300, mem := [(0x300, 0xC3)] }
      (fun t => ([62, 63, 4, 5, 0, 1, 2, 3, 6].map fun x => t.disp.pixel 31 x, t.reg vf)) =
      some ([true, true, true, true, false, false, false, false, false], 0) := by decide

/-- L2.5 7: a set pixel is cleared. -/
theorem test_drw_collides :
    after 0xD011
      { State.reset with i := 0x300, mem := [(0x300, 0xC0)], disp := State.reset.disp.flip 0 0 }
      (fun t => (t.disp.pixel 0 0, t.disp.pixel 0 1, t.reg vf)) = some (false, true, 1) := by decide

/-! ## Keys and timers (L2.6) -/

/-- L2.6 1 and 3. -/
theorem test_skp :
    after 0xE19E { regs [(1, 5)] with keys := State.reset.keys.set 5 true } (·.pc) = some 0x204 ∧
    after 0xE19E { regs [(1, 0x15)] with keys := State.reset.keys.set 5 true } (·.pc) = some 0x202 := by
  decide

/-- L2.6 5 and 6. -/
theorem test_sknp :
    after 0xE1A1 { regs [(1, 5)] with keys := State.reset.keys.set 5 true } (·.pc) = some 0x202 ∧
    after 0xE1A1 { regs [(1, 0x15)] with keys := State.reset.keys.set 5 true } (·.pc) = some 0x204 := by
  decide

/-- L2.6 8. -/
theorem test_ldVxDt : after 0xF307 { State.reset with dt := 0x3C } (·.reg 3) = some 0x3C := by decide

/-- 45_keys_timers.md R173's example, its first step. -/
theorem test_ldVxK :
    after 0xF20A (regs [(2, 9)]) (fun t => (t.wait, t.reg 2, t.pc)) = some (some 2, 9, 0x202) := by decide

/-- L2.6 9. -/
theorem test_ldDtVx : after 0xF015 (regs [(0, 5)]) (fun t => (t.dt, t.st)) = some (5, 0) := by decide

/-- L2.6 10. -/
theorem test_ldStVx : after 0xF018 (regs [(0, 3)]) (fun t => (t.dt, t.st)) = some (0, 3) := by decide

/-! ## Frames -/

/-- L2.6 14: the first key-up completes the wait. -/
theorem test_first_key_up :
    shows { State.reset with wait := some 2, keyIn := [[.up 4, .up 5]] }
      (fun t => (t.reg 2, t.wait, t.keyIn, t.phase)) = some (4, none, [], .slots 20) := by decide

/-- L2.6 15 and 16: a key-down does not end the wait, and the list is applied in order. -/
theorem test_key_events_in_order :
    shows { State.reset with wait := some 2, keyIn := [[.down 9]] } (fun t => (t.keys[9], t.wait)) =
      some (true, some 2) ∧
    shows { State.reset with keyIn := [[.up 3, .down 3]] } (·.keys[3]) = some true := by decide

/-- 00_scope.md R8: the first frame from reset takes the free list of frame 0, whatever it is. -/
theorem test_free_key_events :
    step State.reset = .next
      { State.applyEvents { State.reset with frames := 1 } (Config.keyEvents 0) with phase := .slots 20 } := rfl

/-- L2.6 17, the frame's end: the tone reads `ST` after its decrement. -/
theorem test_frame_end :
    shows { State.reset with phase := .slots 0, dt := 2, st := 1 }
      (fun t => (t.dt, t.st, t.shown.map (·.tone), t.phase)) = some (1, 0, some false, .input) := by decide

/-- The state after reset meets the invariant. -/
theorem test_reset_inv : State.reset.inv := by decide

/-! ## Witnesses: states and operands that meet the hypotheses of each statement together, clause by clause. A
statement that is not named has no hypothesis. -/

/-- A state ready to run the opcode `op` in its next step. -/
def ready (op : Nat) (s : State) : State := s.withFetchWord 16 op

/-- Whether the next step of `s` changes what `f` shows. -/
def changes {α : Type} [DecidableEq α] (s : State) (f : State → α) : Bool :=
  match step s with
  | .next t => f t != f s
  | .fault _ => false
  | .refused _ => false

/-- A halted state. -/
def halted : State := { State.reset with halt := some ⟨.memoryBound, 0x200, some 0xF033⟩ }

theorem witness_DecodeOfEncodeIsTheInstruction :
    (Instr.noHandler 0x0001).wf = true ∧ (Instr.drw 15 15 15).wf = true := by decide

/-- A word of a row, and a word of none. -/
theorem witness_DecodeFollowsTheOpcodeMap :
    (⟨0xF0FF, 0xF065⟩ : Row) ∈ opcodeMap ∧ (⟨0xF0FF, 0xF065⟩ : Row).takes 0xFF65 = true ∧
    ∀ r ∈ opcodeMap, r.takes 0xFFFF = false := by decide

theorem witness_UnusedFieldsHaveNoEffect : ({ State.reset with sp := 1 } : State).sp ≠ 0 := by decide

/-- The first slot of a frame and the last, `PC` at its greatest. -/
theorem witness_StepRunsTheDecodedInstruction :
    ({ State.reset with phase := .slots 20 } : State).executes 19 ∧
    ({ State.reset with phase := .slots 1, pc := 0xFFE } : State).executes 0 := by decide

/-- Both policies, one at the least `PC` out of bounds and one at the greatest. -/
theorem witness_PcOverflowFollowsThePolicy :
    (let s : State := { State.reset with pc := 0xFFF, phase := .slots 1 }
     s.halt = none ∧ s.wait = none ∧ s.phase = .slots 1 ∧ 0xFFE < s.pc.toNat ∧ s.cfg.pcPolicy = .reset) ∧
    (let s : State := { State.reset with pc := 0xFFFF, phase := .slots 1, cfg.pcPolicy := .fatal }
     s.halt = none ∧ s.wait = none ∧ s.phase = .slots 1 ∧ 0xFFE < s.pc.toNat ∧
      s.cfg.pcPolicy = .fatal) := by decide

theorem witness_HaltedAndWaitingSlotsChangeNothing :
    halted.halt ≠ none ∧
    (let s : State := { State.reset with wait := some 15, phase := .slots 1 }
     s.halt = none ∧ s.wait ≠ none ∧ s.phase = .slots 1) := by decide

theorem witness_HaltedCoreNeverChanges : halted.halt ≠ none := by decide

/-- A fatal error, and each line of the table with the core running on. -/
theorem witness_PcFollowsTheTable :
    ((ready 0x00EE State.reset).nextInstr = some (.ret 0x0E) ∧
      after 0x00EE State.reset (·.halt.isSome) = some true) ∧
    ∀ op ∈ [0x1FFF, 0x2FFF, 0xBFFF, 0x00EE, 0x3000, 0x4000, 0x5010, 0x9010, 0xE09E, 0xE0A1, 0xF00A, 0x8008],
      (ready op { State.reset with sp := 1 }).nextInstr = some (decode (BitVec.ofNat 16 op)) ∧
      after op { State.reset with sp := 1 } (·.halt) = some none := by decide

/-- Each skip, taken and not taken. -/
theorem witness_RegisterSkipsAddTwoExactlyWhenTrue :
    let s := regs [(1, 0xFF), (2, 0xFF)]
    s.reg 1 = 0xFF ∧ ¬s.reg 0 = 0xFF ∧ s.reg 1 = s.reg 2 ∧ ¬s.reg 0 = s.reg 1 := by decide

/-- The greatest key held, and a value above 15. -/
theorem witness_KeySkipsFollowTheKeySet :
    (∃ k : Key, k.val = ((regs [(1, 15)]).reg 1).toNat ∧
      ({ regs [(1, 15)] with keys := State.reset.keys.set 15 true } : State).keys[k] = true) ∧
    ¬∃ k : Key, k.val = ((regs [(1, 16)]).reg 1).toNat ∧
      ({ regs [(1, 16)] with keys := Vector.replicate 16 true } : State).keys[k] = true := by decide

theorem witness_CallPushesOrOverflows :
    ({ State.reset with sp := 15 } : State).sp.val < 16 ∧
    ({ State.reset with sp := 16 } : State).sp = 16 := by decide

theorem witness_ReturnPopsOrUnderflows :
    0 < ({ State.reset with sp := 1 } : State).sp.val ∧ 0 < ({ State.reset with sp := 16 } : State).sp.val ∧
    State.reset.sp = 0 := by decide

/-- The call into the last entry of the stack, and the state it leaves. -/
theorem witness_ReturnComesBackAfterTheCall :
    ∃ s t u : State, s.sp.val < 16 ∧ s.sp.val = 15 ∧ exec (.call 0xFFF) s = .next t ∧ u.sp = t.sp ∧
      u.stack = t.stack ∧ u.i ≠ t.i :=
  let t : State := { State.reset with sp := 16, stack := State.reset.stack.set 15 0x200, pc := 0xFFF }
  ⟨{ State.reset with sp := 15 }, t, { t with i := 1 }, by decide, rfl, rfl, rfl, rfl, by decide⟩

theorem witness_SixteenNestedCallsThenOverflow :
    State.reset.sp = 0 ∧ (List.replicate 16 (0x200 : BitVec 12)).length = 16 := by decide

/-- The clauses of the flag-setting instructions: a flag set and not set, a destination that is `VF` and one that
is not, both write orders. -/
theorem witness_flag_clauses :
    (0 : Reg) ≠ vf ∧ State.reset.cfg.vfOrder ≠ .flagLast ∧
    ({ State.reset with cfg.vfOrder := .flagLast } : State).cfg.vfOrder = .flagLast ∧
    (let s := regs [(0, 0xFF), (1, 1)]
     (s.reg 0).toNat + (s.reg 1).toNat > 255 ∧ ¬(s.reg 0).toNat + (s.reg 2).toNat > 255 ∧
     (s.reg 0).toNat > (s.reg 1).toNat ∧ ¬(s.reg 1).toNat > (s.reg 1).toNat ∧
     (s.reg 1).toNat % 2 = 1 ∧ ¬(s.reg 2).toNat % 2 = 1 ∧
     128 ≤ (s.reg 0).toNat ∧ ¬128 ≤ (s.reg 1).toNat) := by decide

theorem witness_WriteOrderMattersOnlyForVF :
    (14 : Reg) ≠ vf ∧ ∀ i ∈ [Instr.addReg 14 15, .sub 14 15, .shr 14 15, .subn 14 15, .shl 14 15],
      ∃ t, exec i State.reset = .next t := by
  refine ⟨by decide, ?_⟩
  intro i hi
  simp only [List.mem_cons, List.not_mem_nil, or_false] at hi
  rcases hi with rfl | rfl | rfl | rfl | rfl <;> exact ⟨_, rfl⟩

theorem witness_RandomByteIsTheDrawUnderTheMask :
    ({ State.reset with rndIn := [0xA7] } : State).rndIn = 0xA7 :: [] := by decide

/-- A draw from the port and a free draw. -/
theorem witness_OnlyRndConsumesADraw :
    changes (ready 0xC3FF { State.reset with rndIn := [0xA7] }) (·.rndIn) = true ∧
    changes (ready 0xC300 State.reset) (·.draws) = true := by decide

/-- The last address where the three digits fit, and the first where they do not. -/
theorem witness_BcdStoresThreeDigitsOrFaults :
    Memory.wf State.reset.cfg State.reset.mem ∧
    ({ State.reset with i := 0xFFD } : State).effAddr 2 ≤ 0xFFF ∧
    0xFFF < ({ State.reset with i := 0xFFE } : State).effAddr 2 := by decide

/-- The last base where 16 registers fit, and the first where they do not; for FX65 too. -/
theorem witness_StoreRegistersOrFault :
    Memory.wf State.reset.cfg State.reset.mem ∧
    ({ State.reset with i := 0xFF0 } : State).effAddr 15 ≤ 0xFFF ∧
    0xFFF < ({ State.reset with i := 0xFF1 } : State).effAddr 15 ∧
    ({ State.reset with i := 0xFFF } : State).effAddr 0 ≤ 0xFFF ∧
    0xFFF < ({ State.reset with i := 0xFFFF } : State).effAddr 0 := by decide

/-- A store of `V0` and `V1` at the last word of memory; the reading state has other registers. -/
theorem witness_LoadGivesBackWhatStoreWrote :
    ∃ s t u : State, Memory.wf s.cfg s.mem ∧ s.effAddr 1 ≤ 0xFFF ∧ exec (.ldMemVx 1) s = .next t ∧
      u.mem = t.mem ∧ u.cfg = t.cfg ∧ u.i = s.i ∧ u.reg 0 ≠ s.reg 0 :=
  let s : State := { regs [(0, 0x60), (1, 7)] with i := 0xFFE }
  let t : State := { s with mem := [(0xFFE, 0x60), (0xFFF, 7)] }
  ⟨s, t, t.setReg 0 9, by decide, by decide, rfl, rfl, rfl, rfl, by decide⟩

/-- FX55 with `X = 0` and FX33, each storing over the word that the next slot fetches. -/
theorem witness_StoredOpcodeIsFetchedAtOnce :
    ∃ s t u : State, Memory.wf s.cfg s.mem ∧ exec (.ldMemVx 0) s = .next t ∧ t.executes 0 ∧
      t.pc.toNat = s.effAddr 0 ∧ exec (.ldB 0) s = .next u ∧ u.executes 0 ∧ u.pc.toNat = s.effAddr 0 :=
  let s : State := { regs [(0, 0x60)] with i := 0xFFD, pc := 0xFFD, phase := .slots 1 }
  ⟨s, _, _, by decide, rfl, by decide, by decide, rfl, by decide, by decide⟩

/-- `N = 0` with `I` past memory; the last sprite byte in memory and the first outside; a pixel under a 1 bit that is set, and one under
none. -/
theorem witness_DrawFlipsTheSpritesPixels :
    ((0 : BitVec 4) = 0 ∧ 0xFFF < ({ State.reset with i := 0x1000 } : State).effAddr 0) ∧
    ({ State.reset with i := 0xFFF } : State).effAddr ((1 : BitVec 4).toNat - 1) ≤ 0xFFF ∧
    0xFFF < ({ State.reset with i := 0xFFF } : State).effAddr ((2 : BitVec 4).toNat - 1) ∧
    (let s : State := { State.reset with i := 0xFFF, mem := [(0xFFF, 0x01)], disp := State.reset.disp.flip 0 7 }
     s.spriteCovers 0 0 1 0 7 ∧ s.disp.pixel 0 7 = true ∧ ¬s.spriteCovers 0 0 1 0 0) := by
  refine ⟨by decide, by decide, by decide, ⟨0, by decide, 7, by decide, by decide⟩, by decide, ?_⟩
  rintro ⟨r, hr, c, hc, -, h, hb⟩
  have hr0 : r = 0 := by omega
  have hc0 : c = 0 := by
    simp only [show (0 : Byte).toNat = 0 from rfl, Nat.zero_add] at h
    have : c % 64 = c := Nat.mod_eq_of_lt (by omega)
    simpa [this] using h.symm
  subst hr0 hc0
  revert hb
  decide

/-- A first draw of a sprite with a 1 bit on a clear display, and one of a sprite with none; the second draw starts from a state that
differs from the one the first draw left. -/
theorem witness_DrawingTwiceGivesBackTheDisplay :
    ∀ b ∈ [(0x80 : Byte), 0x00], ∃ s t u : State, s.effAddr ((1 : BitVec 4).toNat - 1) ≤ 0xFFF ∧
      exec (.drw 0 1 1) s = .next t ∧ u.disp = t.disp ∧ u.i = s.i ∧
      (∀ a, u.readByte a = s.readByte a) ∧ u.reg 2 = s.reg 0 ∧ u.reg 3 = s.reg 1 ∧ u.dt ≠ t.dt ∧
      s.readByte (s.effAddr 0) = b ∧ s.disp = Display.blank := by
  intro b hb
  have hb' : b = 0x80 ∨ b = 0x00 := by simpa using hb
  rcases hb' with rfl | rfl
  · exact ⟨{ State.reset with i := 0xFFF, mem := [(0xFFF, 0x80)] }, _,
      { State.draw { State.reset with i := 0xFFF, mem := [(0xFFF, 0x80)] } 0 1 [0x80] with dt := 1 },
      by decide, rfl, rfl, rfl, fun _ => rfl, rfl, rfl, by decide, by decide, rfl⟩
  · exact ⟨{ State.reset with i := 0xFFF }, _,
      { State.draw { State.reset with i := 0xFFF } 0 1 [0x00] with dt := 1 },
      by decide, rfl, rfl, rfl, fun _ => rfl, rfl, rfl, by decide, by decide, rfl⟩

/-- The case that 44_display.md R163 leaves out (notes/assumptions/21.md), by R161 alone: the one pixel under the
sprite is set; the first draw clears it, and the second, from there, finds it clear. -/
theorem test_second_draw_without_collision :
    after 0xD011 { State.reset with i := 0x300, mem := [(0x300, 0x80)], disp := State.reset.disp.flip 0 0 }
      (fun t => (t.disp.pixel 0 0, t.reg vf)) = some (false, 1) ∧
    after 0xD011 { State.reset with i := 0x300, mem := [(0x300, 0x80)] }
      (fun t => (t.disp.pixel 0 0, t.reg vf)) = some (true, 0) := by decide

theorem witness_OnlyClearAndDrawWriteTheDisplay :
    ∃ s t : State, step s = .next t ∧ t.disp ≠ s.disp :=
  ⟨ready 0x00E0 { State.reset with disp := State.reset.disp.flip 0 0 }, _, rfl,
    fun h => absurd (congrArg (fun d => Display.pixel d 0 0) h) (by decide)⟩

theorem witness_OnlyThreeInstructionsWriteI :
    changes (ready 0xAFFF State.reset) (·.i) = true ∧ changes (ready 0xF01E (regs [(0, 1)])) (·.i) = true ∧
    changes (ready 0xF029 State.reset) (·.i) = true := by decide

theorem witness_OnlyCallPushesAndOnlyReturnPops :
    changes (ready 0x2FFF State.reset) (·.sp) = true ∧ changes (ready 0x2FFF State.reset) (·.stack) = true ∧
    changes (ready 0x00EE { State.reset with sp := 16 }) (·.sp) = true := by decide

theorem witness_TimersChangeOnlyByTheirLoadOrAtFrameEnd :
    changes (ready 0xF015 (regs [(0, 255)])) (·.dt) = true ∧
    changes { State.reset with phase := .slots 0, dt := 1 } (·.dt) = true ∧
    changes (ready 0xF018 (regs [(0, 255)])) (·.st) = true ∧
    changes { State.reset with phase := .slots 0, st := 1 } (·.st) = true := by decide

theorem witness_KeysAndGateChangeOnlyAsTheGateSays :
    changes { State.reset with keyIn := [[.down 15]] } (·.keys) = true ∧
    shows (ready 0xFF0A State.reset) (·.wait) = some (some 15) ∧ (ready 0xFF0A State.reset).wait ≠ some 15 ∧
    (let s : State := { State.reset with wait := some 0, keyIn := [[.up 0]] }
     s.wait = some 0 ∧ shows s (·.wait) = some none) := by decide

theorem witness_OnlyStoresChangeMemory :
    changes (ready 0xF033 { regs [(0, 1)] with i := 0xFFD }) (·.readByte 0xFFF) = true ∧
    changes (ready 0xF055 { regs [(0, 1)] with i := 0xFFF }) (·.readByte 0xFFF) = true := by decide

/-- A flag write, a destination write and FX65 up to `VF`. -/
theorem witness_VfIsWrittenOnlyAsFlagOrDestination :
    (∃ t, exec (.shr 0 0) (regs [(0, 1)]) = .next t ∧ t.reg vf ≠ (regs [(0, 1)]).reg vf) ∧
    (∃ t, exec (.ldImm vf 1) State.reset = .next t ∧ t.reg vf ≠ State.reset.reg vf) ∧
    (∃ t, exec (.ldVxMem vf) { State.reset with i := 0x41 } = .next t ∧ t.reg vf ≠ State.reset.reg vf) :=
  ⟨⟨_, rfl, by decide⟩, ⟨_, rfl, by decide⟩, ⟨_, rfl, by decide⟩⟩

/-- Each cause of R190, each instruction that raises MemoryBound. -/
theorem witness_FatalErrorsArePreciseAndListed :
    (let s : State := { State.reset with pc := 0xFFF, phase := .slots 1, cfg.pcPolicy := .fatal }
     s.halt = none ∧ shows s (·.halt) = some (some ⟨.pcOutOfRange, 0xFFF, none⟩)) ∧
    ∀ p ∈ [(0x2000, FatalCause.stackOverflow, (16 : Fin 17)), (0x00EE, .stackUnderflow, 0),
        (0xF033, .memoryBound, 0), (0xF155, .memoryBound, 0), (0xF165, .memoryBound, 0),
        (0xD002, .memoryBound, 0)],
      let s := ready p.1 { State.reset with i := 0xFFF, sp := p.2.2 }
      s.halt = none ∧ shows s (·.halt) = some (some ⟨p.2.1, 0x200, some (BitVec.ofNat 16 p.1)⟩) := by
  decide

/-- Both diagnostics in one step. -/
theorem witness_DiagnosticsAreTheTwoConditionsInOrder :
    let s := ready 0x8008 { State.reset with pc := 0xFFF }
    s.nextInstr ≠ none ∧ 0xFFE < s.pc.toNat ∧
      shows s (·.diags) = some [.pcReset 0xFFF, .unknownOpcode 0x200 0x8008] := by decide

/-- The whole-machine statements with a step and nothing else. -/
theorem witness_a_step : ∃ t, step State.reset = .next t ∧ State.reset.inv := ⟨_, rfl, by decide⟩

theorem witness_KeyEventsUpdateKeysAndRelease :
    ∃ k j : Key, j ≠ k ∧ ({ State.reset with wait := some 15 } : State).wait = some 15 ∧
      ({ State.reset with wait := some 15 } : State).wait ≠ some 0 := ⟨15, 0, by decide⟩

theorem witness_FirstKeyUpCompletesTheWait :
    ({ State.reset with wait := some 15 } : State).wait = some 15 ∧
    (∀ e ∈ [KeyEvent.down 0, .down 15], ∃ j, e = .down j) ∧ (0 : Reg) ≠ 15 := by decide

theorem witness_FrameEndTicksTimersAndPresentsOutputs :
    ({ State.reset with phase := .slots 0, wait := some 0 } : State).halt = none ∧
    ({ State.reset with phase := .slots 0, wait := some 0 } : State).phase = .slots 0 := by decide

theorem witness_FrameIsItsSteps : State.reset.phase = .input ∧ halted.phase = .input := by decide

theorem witness_WaitingFramesOnlyCountTheTimersDown :
    let s : State := { State.reset with wait := some 0, keyIn := [[.down 0, .down 15], []] }
    s.halt = none ∧ s.phase = .input ∧ s.wait ≠ none ∧
      ∀ j < 2, ∀ e ∈ s.eventsAt j, ∃ k, e = .down k := by decide

/-- A port that holds a list, and one that holds none. -/
theorem witness_FrameBeginsWithItsEvents :
    State.reset.halt = none ∧ State.reset.phase = .input ∧ State.reset.keyIn = [] ∧
    (let s : State := { State.reset with keyIn := [[.up 15], []] }
     s.halt = none ∧ s.phase = .input ∧ s.keyIn = [.up 15] :: [[]]) := by decide

/-- Each check of the validation failing alone, and the bounds where all hold. -/
theorem witness_ConstructionLaysOutFontAndRom :
    (¬(1 ≤ 0 ∧ 0 ≤ 20 ∧ ([] : List Byte).length ≤ 3584)) ∧
    (¬(1 ≤ 21 ∧ 21 ≤ 20 ∧ ([] : List Byte).length ≤ 3584)) ∧
    (¬(1 ≤ 1 ∧ 1 ≤ 20 ∧ (List.replicate 3585 (0 : Byte)).length ≤ 3584)) ∧
    (1 ≤ Config.default.ipf ∧ Config.default.ipf ≤ Config.default.ipfMax ∧
      (List.replicate 3584 (0 : Byte)).length ≤ 3584) := by
  rw [List.length_replicate, List.length_replicate]
  decide

/-- A state that meets the invariant in the middle of a frame, and a halted one. -/
theorem witness_StepKeepsTheInvariant :
    (∃ t, step (ready 0xF055 State.reset) = .next t ∧ (ready 0xF055 State.reset).inv) ∧
    (∃ t, step halted = .next t ∧ halted.inv) :=
  ⟨⟨_, rfl, by decide⟩, ⟨_, rfl, by decide⟩⟩

end Sys2Proof.Tests
end

section
/-! The totality of the machine (00_scope.md R13): no fault and no refusal of the host's interface is reachable. -/

namespace Sys2Proof.Machine

/-- Only the six instructions with a fatal condition have two outcomes, and the fatal one is a next state too. -/
theorem exec_answers_next (i : Instr) (s : State) : ∃ t, exec i s = .next t := by
  cases i with
  | ret mid => rcases execRet_cases mid s with ⟨-, e⟩ | ⟨_, _, -, e⟩ <;> exact ⟨_, e⟩
  | call nnn => rcases execCall_cases nnn s with ⟨-, e⟩ | ⟨_, e⟩ <;> exact ⟨_, e⟩
  | drw x y n => rcases execDrw_cases x y n s with ⟨-, -, e⟩ | ⟨-, e⟩ <;> exact ⟨_, e⟩
  | ldB x => rcases execLdB_cases x s with ⟨-, e⟩ | ⟨-, e⟩ <;> exact ⟨_, e⟩
  | ldMemVx x => rcases execLdMemVx_cases x s with ⟨-, e⟩ | ⟨-, e⟩ <;> exact ⟨_, e⟩
  | ldVxMem x => rcases execLdVxMem_cases x s with ⟨-, e⟩ | ⟨-, e⟩ <;> exact ⟨_, e⟩
  | _ => exact ⟨_, rfl⟩

/-- The fetch of a cycle is always in memory (`cycle_cases`), so a cycle is as total as `exec`. -/
theorem cycle_answers_next (s : State) : ∃ t, cycle s = .next t := by
  rcases cycle_cases s with ⟨-, e⟩ | ⟨-, -, e⟩ | ⟨-, -, -, -, e⟩ | ⟨-, -, -, -, e⟩
  · exact ⟨_, e⟩
  · exact ⟨_, e⟩
  · exact ⟨_, e⟩
  · rw [e]
    exact exec_answers_next _ _

theorem slot_answers_next (left : Nat) (s : State) : ∃ t, slot left s = .next t := by
  obtain ⟨u, hu⟩ := cycle_answers_next s
  exact ⟨u.afterSlot left, by rw [slot, hu, thenDo_of_next]⟩

theorem step_answers_next (s : State) : ∃ t, step s = .next t := by
  rcases step_cases s with ⟨-, e⟩ | ⟨-, -, e⟩ | ⟨left, -, -, e⟩ | ⟨-, -, e⟩
  · exact ⟨_, e⟩
  · exact ⟨_, e⟩
  · rw [e]
    exact slot_answers_next left s
  · exact ⟨_, e⟩

/-- Settles O48: an instruction's totality lifts through the cycle and the slot to the step. -/
theorem everyInstructionAndEveryStepAnswersNext : Obligations.EveryInstructionAndEveryStepAnswersNext :=
  ⟨exec_answers_next, step_answers_next⟩

end Sys2Proof.Machine
end

section
/-! What each instruction may write, said once, and from it what a step may change (10_state.md R21 to R37): a step
changes a part of the state only by the frame's own phases or by the instruction it executes. -/

namespace Sys2Proof.Machine

/-- The parts of the state that an instruction may write, the fatal error of six of them included. -/
def writes : Instr → List Part
  | .cls _ => [.display]
  | .ret _ | .call _ => [.stack, .pc, .halt]
  | .jp _ | .jpV0 _ => [.pc]
  | .seImm _ _ | .sneImm _ _ | .seReg _ _ _ | .sneReg _ _ _ | .skp _ _ | .sknp _ _ => [.pc]
  | .ldImm _ _ | .addImm _ _ | .ldReg _ _ | .or _ _ | .and _ _ | .xor _ _ | .addReg _ _ | .sub _ _
  | .shr _ _ | .subn _ _ | .shl _ _ | .ldVxDt _ => [.regs]
  | .rnd _ _ => [.regs, .rndPort]
  | .drw _ _ _ => [.regs, .display, .pc, .halt]
  | .ldI _ | .addIVx _ | .ldF _ => [.index]
  | .ldVxK _ => [.gate]
  | .ldDtVx _ => [.delayTimer]
  | .ldStVx _ => [.soundTimer]
  | .ldB _ | .ldMemVx _ => [.memory, .pc, .halt]
  | .ldVxMem _ => [.regs, .pc, .halt]
  | .noHandler _ => [.diagPort]

theorem index_mem_writes {i : Instr} : Part.index ∈ writes i →
    (∃ nnn, i = .ldI nnn) ∨ (∃ x, i = .addIVx x) ∨ (∃ x, i = .ldF x) := by
  cases i <;> simp [writes]

theorem stack_mem_writes {i : Instr} : Part.stack ∈ writes i →
    (∃ nnn, i = .call nnn) ∨ (∃ mid, i = .ret mid) := by
  cases i <;> simp [writes]

theorem rndPort_mem_writes {i : Instr} : Part.rndPort ∈ writes i → ∃ x nn, i = .rnd x nn := by
  cases i <;> simp [writes]

theorem delayTimer_mem_writes {i : Instr} : Part.delayTimer ∈ writes i → ∃ x, i = .ldDtVx x := by
  cases i <;> simp [writes]

theorem soundTimer_mem_writes {i : Instr} : Part.soundTimer ∈ writes i → ∃ x, i = .ldStVx x := by
  cases i <;> simp [writes]

theorem gate_mem_writes {i : Instr} : Part.gate ∈ writes i → ∃ x, i = .ldVxK x := by
  cases i <;> simp [writes]

theorem keys_not_mem_writes (i : Instr) : Part.keys ∉ writes i := by
  cases i <;> simp [writes]

theorem config_not_mem_writes (i : Instr) : Part.config ∉ writes i := by
  cases i <;> simp [writes]

/-- A frame condition, part by part. -/
theorem State.keepsAllBut_iff (s t : State) (changed : List Part) : s.keepsAllBut t changed ↔
    (.regs ∉ changed → ∀ r, t.reg r = s.reg r) ∧ (.index ∉ changed → t.i = s.i) ∧
    (.pc ∉ changed → t.pc = s.pc) ∧ (.stack ∉ changed → t.sp = s.sp ∧ t.stack = s.stack) ∧
    (.delayTimer ∉ changed → t.dt = s.dt) ∧ (.soundTimer ∉ changed → t.st = s.st) ∧
    (.display ∉ changed → t.disp = s.disp) ∧ (.keys ∉ changed → t.keys = s.keys) ∧
    (.gate ∉ changed → t.wait = s.wait) ∧ (.halt ∉ changed → t.halt = s.halt) ∧
    (.memory ∉ changed → ∀ a, t.readByte a = s.readByte a) ∧ (.config ∉ changed → t.cfg = s.cfg) ∧
    (.keyPort ∉ changed → t.keyIn = s.keyIn ∧ t.frames = s.frames) ∧
    (.rndPort ∉ changed → t.rndIn = s.rndIn ∧ t.draws = s.draws) ∧
    (.outputs ∉ changed → t.shown = s.shown) ∧ (.diagPort ∉ changed → t.diags = s.diags) ∧
    (.phase ∉ changed → t.phase = s.phase) := by
  constructor
  · intro h
    exact ⟨h .regs, h .index, h .pc, h .stack, h .delayTimer, h .soundTimer, h .display, h .keys, h .gate, h .halt,
      h .memory, h .config, h .keyPort, h .rndPort, h .outputs, h .diagPort, h .phase⟩
  · intro h p hp
    cases p <;> simp_all [State.sameOn]

/-- An instruction changes no part of the state but those it may write. -/
theorem exec_keepsAllBut_writes {i : Instr} {s t : State} (h : exec i s = .next t) :
    s.keepsAllBut t (writes i) := by
  rcases exec_effect h with ⟨c, rfl, -, hi⟩ | ⟨-, he⟩
  · rcases hi with ⟨_, rfl⟩ | ⟨_, rfl⟩ | ⟨_, _, _, rfl⟩ | ⟨_, rfl⟩ | ⟨_, rfl⟩ | ⟨_, rfl⟩ <;>
      simp [State.keepsAllBut_iff, writes]
  · cases i with
    | call nnn => obtain ⟨_, rfl⟩ := he; simp [State.keepsAllBut_iff, writes, State.reg, State.readByte]
    | ret mid => obtain ⟨_, _, -, rfl⟩ := he; simp [State.keepsAllBut_iff, writes, State.reg, State.readByte]
    | drw x y n => obtain ⟨-, rfl⟩ := he; simp [State.keepsAllBut_iff, writes]
    | ldB x | ldMemVx x => obtain ⟨-, rfl⟩ := he; simp [State.keepsAllBut_iff, writes, State.reg]
    | ldVxMem x => obtain ⟨-, rfl⟩ := he; simp [State.keepsAllBut_iff, writes]
    | _ => cases h; simp [State.keepsAllBut_iff, writes, State.reg, State.readByte]

end Sys2Proof.Machine
end

section
/-! Why a step changes a part of the state: the frame's own phases, or the instruction it executes (40_cycle.md R80,
R91). -/

namespace Sys2Proof.Machine

theorem State.sameOn_refl (s : State) (p : Part) : s.sameOn s p := by
  cases p <;> simp [State.sameOn]

theorem State.sameOn_trans {s t u : State} {p : Part} (h : s.sameOn t p) (h' : t.sameOn u p) : s.sameOn u p := by
  cases p <;> simp_all [State.sameOn]

/-- What a slot may change beside the effect of its instruction: the bound check, the advance and the count of slots
write these parts. -/
def slotParts : List Part := [.pc, .halt, .diagPort, .phase]

theorem State.checkPc_advance_keepsAllBut (s : State) : s.keepsAllBut s.checkPc.advance slotParts := by
  simp [State.keepsAllBut_iff, slotParts]

theorem State.afterSlot_keepsAllBut (s : State) (left : Nat) : s.keepsAllBut (s.afterSlot left) slotParts := by
  simp [State.keepsAllBut_iff, slotParts]

theorem State.keepsAllBut_halt_phase (s : State) (f : Option FaultRecord) (ph : Phase) :
    s.keepsAllBut { s with halt := f, phase := ph } slotParts := by
  simp [State.keepsAllBut_iff, slotParts, State.reg, State.readByte]

theorem State.beginFrame_keepsAllBut (s : State) :
    s.keepsAllBut s.beginFrame [.regs, .keys, .gate, .keyPort, .phase] := by
  simp [State.keepsAllBut_iff]

theorem State.endFrame_keepsAllBut (s : State) :
    s.keepsAllBut s.endFrame [.delayTimer, .soundTimer, .outputs, .phase] := by
  simp [State.keepsAllBut_iff]

/-- What changes a part that is not the slot's own: the input phase, the end of the frame, or an executed instruction,
each of them a writer of that part. -/
theorem step_change {s t : State} {p : Part} (h : step s = .next t) (hp : p ∉ slotParts)
    (hc : ¬ s.sameOn t p) :
    (s.phase = .input ∧ t = s.beginFrame ∧ p ∈ [Part.regs, .keys, .gate, .keyPort, .phase]) ∨
    (s.phase = .slots 0 ∧ t = s.endFrame ∧ p ∈ [Part.delayTimer, .soundTimer, .outputs, .phase]) ∨
    (s.wait = none ∧ ∃ i u l, s.nextInstr = some i ∧ exec i s.checkPc.advance = .next u ∧
      t = u.afterSlot l ∧ p ∈ writes i) := by
  rcases step_effect h with ⟨-, -, rfl⟩ | ⟨-, hi, -, rfl⟩ | ⟨-, he, -, rfl⟩ | ⟨l, -, -, -, -, rfl⟩ |
    ⟨l, -, -, -, -, -, -, rfl⟩ | ⟨l, -, -, hw, -, u, hn, hu, rfl⟩
  · exact absurd (t.sameOn_refl p) hc
  · exact .inl ⟨hi, rfl, not_imp_comm.mp (s.beginFrame_keepsAllBut p) hc⟩
  · exact .inr (.inl ⟨he, rfl, not_imp_comm.mp (s.endFrame_keepsAllBut p) hc⟩)
  · exact absurd (s.keepsAllBut_halt_phase s.halt _ p hp) hc
  · exact absurd (s.keepsAllBut_halt_phase _ _ p hp) hc
  · refine .inr (.inr ⟨hw, _, u, l, hn, hu, rfl, ?_⟩)
    by_contra hm
    have hfetch : s.sameOn s.checkPc.advance p := s.checkPc_advance_keepsAllBut p hp
    have hexec : s.checkPc.advance.sameOn u p := exec_keepsAllBut_writes hu p hm
    exact hc (State.sameOn_trans (State.sameOn_trans hfetch hexec) (u.afterSlot_keepsAllBut l p hp))

/-- The parts that a step changes only by the instruction it executes. -/
theorem step_change_by_instr {s t : State} {p : Part} (h : step s = .next t)
    (hp : p ∈ [Part.index, .stack, .display, .memory, .config, .rndPort]) (hc : ¬ s.sameOn t p) :
    ∃ i u l, s.nextInstr = some i ∧ exec i s.checkPc.advance = .next u ∧ t = u.afterSlot l ∧ p ∈ writes i := by
  have hslot : p ∉ slotParts := by rintro hs; cases p <;> simp [slotParts] at hp hs
  rcases step_change h hslot hc with ⟨-, -, hm⟩ | ⟨-, -, hm⟩ | ⟨-, hi⟩
  · cases p <;> simp at hp hm
  · cases p <;> simp at hp hm
  · exact hi

/-! ## The index register, the stack, the random port, the configuration -/

/-- Settles O40: `I` changes only by an executed instruction, and three instructions write it. -/
theorem onlyThreeInstructionsWriteI : Obligations.OnlyThreeInstructionsWriteI := by
  intro s t h hc
  obtain ⟨i, u, l, hn, -, -, hm⟩ := step_change_by_instr (p := .index) h (by simp) hc
  rcases index_mem_writes hm with ⟨nnn, rfl⟩ | ⟨x, rfl⟩ | ⟨x, rfl⟩
  · exact .inl ⟨nnn, hn⟩
  · exact .inr (.inl ⟨x, hn⟩)
  · exact .inr (.inr ⟨x, hn⟩)

/-- Settles O46: no instruction writes the configuration, and nothing but an instruction could. -/
theorem noStepWritesTheConfiguration : Obligations.NoStepWritesTheConfiguration := by
  intro s t h
  by_contra hc
  obtain ⟨i, u, l, -, -, -, hm⟩ := step_change_by_instr (p := .config) h (by simp) hc
  exact config_not_mem_writes i hm

/-- Settles O26: the one instruction that writes the random port consumes one draw. -/
theorem onlyRndConsumesADraw : Obligations.OnlyRndConsumesADraw := by
  intro s t h hc
  obtain ⟨i, u, l, hn, hu, rfl, hm⟩ := step_change_by_instr (p := .rndPort) h (by simp) (not_and_or.mpr hc)
  obtain ⟨x, nn, rfl⟩ := rndPort_mem_writes hm
  cases hu
  exact ⟨x, nn, hn, by simp⟩

/-- A call that changes the stack pushes, since its fatal error keeps the stack (41_control_flow.md R102). -/
theorem exec_call_stack {nnn : BitVec 12} {s t : State} (h : exec (.call nnn) s = .next t)
    (hc : ¬ s.sameOn t .stack) : t.sp.val = s.sp.val + 1 := by
  rcases exec_effect h with ⟨c, rfl, -⟩ | ⟨-, _, rfl⟩
  · exact absurd ⟨rfl, rfl⟩ hc
  · rfl

/-- A return that changes the stack pops, and the popped entry stays (41_control_flow.md R100). -/
theorem exec_ret_stack {mid : BitVec 8} {s t : State} (h : exec (.ret mid) s = .next t)
    (hc : ¬ s.sameOn t .stack) : t.sp.val + 1 = s.sp.val ∧ t.stack = s.stack := by
  rcases exec_effect h with ⟨c, rfl, -⟩ | ⟨-, n, _, hsp, rfl⟩
  · exact absurd ⟨rfl, rfl⟩ hc
  · exact ⟨by simp [hsp], rfl⟩

/-- Settles O41: the two instructions that write the stack, each by its own effect. -/
theorem onlyCallPushesAndOnlyReturnPops : Obligations.OnlyCallPushesAndOnlyReturnPops := by
  intro s t h hc
  have hc : ¬ s.sameOn t .stack := not_and_or.mpr hc
  obtain ⟨i, u, l, hn, hu, rfl, hm⟩ := step_change_by_instr (p := .stack) h (by simp) hc
  have hstack : ¬ s.checkPc.advance.sameOn u .stack := by simpa [State.sameOn] using hc
  rcases stack_mem_writes hm with ⟨nnn, rfl⟩ | ⟨mid, rfl⟩
  · exact .inl ⟨nnn, hn, by simpa using exec_call_stack hu hstack⟩
  · exact .inr ⟨mid, hn, by simpa using exec_ret_stack hu hstack⟩

/-! ## The timers -/

/-- Settles O42: beside its load, a timer changes only at the end of the frame, by one tick. -/
theorem timersChangeOnlyByTheirLoadOrAtFrameEnd : Obligations.TimersChangeOnlyByTheirLoadOrAtFrameEnd := by
  intro s t h
  constructor
  · intro hc
    rcases step_change (p := .delayTimer) h (by simp [slotParts]) hc with
      ⟨-, -, hm⟩ | ⟨he, rfl, -⟩ | ⟨-, i, u, l, hn, -, -, hm⟩
    · simp at hm
    · exact .inr ⟨he, by simp⟩
    · obtain ⟨x, rfl⟩ := delayTimer_mem_writes hm
      exact .inl ⟨x, hn⟩
  · intro hc
    rcases step_change (p := .soundTimer) h (by simp [slotParts]) hc with
      ⟨-, -, hm⟩ | ⟨he, rfl, -⟩ | ⟨-, i, u, l, hn, -, -, hm⟩
    · simp at hm
    · exact .inr ⟨he, by simp⟩
    · obtain ⟨x, rfl⟩ := soundTimer_mem_writes hm
      exact .inl ⟨x, hn⟩

/-! ## The keys and the gate -/

/-- A frame's events leave the gate alone, or end a wait by a key-up among them (45_keys_timers.md R182). -/
theorem State.applyEvents_wait_cases (s : State) (events : List KeyEvent) :
    (s.applyEvents events).wait = s.wait ∨
      ((s.applyEvents events).wait = none ∧ ∃ k, KeyEvent.up k ∈ events) := by
  induction events generalizing s with
  | nil => exact .inl rfl
  | cons e rest ih =>
    have hrest : (s.applyEvents (e :: rest)).wait = (s.applyEvent e).wait ∨
        ((s.applyEvents (e :: rest)).wait = none ∧ ∃ k, KeyEvent.up k ∈ rest) := ih (s.applyEvent e)
    rcases hrest with hw | ⟨hw, k, hk⟩
    · cases e with
      | down k => exact .inl hw
      | up k => exact .inr ⟨by simpa [State.applyEvent] using hw, k, List.mem_cons_self⟩
    · exact .inr ⟨hw, k, List.mem_cons_of_mem e hk⟩

/-- Why a step changes the gate: a key-up in the input phase, or FX0A in a running core (10_state.md R31,
45_keys_timers.md R181). -/
theorem step_gate_change {s t : State} (h : step s = .next t) (hc : t.wait ≠ s.wait) :
    (t.wait = none ∧ s.phase = .input ∧ ∃ k, KeyEvent.up k ∈ s.frameEvents) ∨
    (s.wait = none ∧ ∃ r, t.wait = some r ∧ s.nextInstr = some (.ldVxK r)) := by
  rcases step_change (p := .gate) h (by simp [slotParts]) hc with
    ⟨hin, rfl, -⟩ | ⟨-, -, hm⟩ | ⟨hw, i, u, l, hn, hu, rfl, hm⟩
  · simp only [State.beginFrame_wait, State.inputPhase] at hc ⊢
    rcases s.afterEvents.applyEvents_wait_cases s.frameEvents with hsame | ⟨hnone, hup⟩
    · exact absurd hsame hc
    · exact .inl ⟨hnone, hin, hup⟩
  · simp at hm
  · obtain ⟨x, rfl⟩ := gate_mem_writes hm
    cases hu
    exact .inr ⟨hw, x, rfl, hn⟩

/-- Settles O43: no instruction writes `KEYS`; the gate changes as `step_gate_change` says. -/
theorem keysAndGateChangeOnlyAsTheGateSays : Obligations.KeysAndGateChangeOnlyAsTheGateSays := by
  intro s t h
  refine ⟨fun hc => ?_, fun r ht hs => ?_, fun r hs ht => ?_⟩
  · rcases step_change (p := .keys) h (by simp [slotParts]) hc with
      ⟨hin, -, -⟩ | ⟨-, -, hm⟩ | ⟨-, i, u, l, -, -, -, hm⟩
    · exact hin
    · simp at hm
    · exact absurd hm (keys_not_mem_writes i)
  · rcases step_gate_change h (by rw [ht]; exact hs.symm) with ⟨hnone, -⟩ | ⟨hw, r', ht', hn⟩
    · simp [hnone] at ht
    · obtain rfl : r' = r := by simpa [ht'] using ht
      exact ⟨hw, hn⟩
  · rcases step_gate_change h (by rw [hs]; exact ht) with hup | ⟨hw, -⟩
    · exact hup
    · simp [hw] at hs

end Sys2Proof.Machine
end

section
/-! Which instructions change `VF` (10_state.md R21). -/

namespace Sys2Proof.Machine

theorem regs_mem_writes_of_reg_ne {i : Instr} {s t : State} {r : Reg} (h : exec i s = .next t)
    (hc : t.reg r ≠ s.reg r) : .regs ∈ writes i :=
  not_imp_comm.mp (exec_keepsAllBut_writes h .regs) fun hr => hc (hr r)

/-- A register that a register write changes is its destination. -/
theorem State.eq_of_setReg_reg_ne {s : State} {x r : Reg} {b : Byte}
    (h : (s.setReg x b).reg r ≠ s.reg r) : x = r := by
  by_contra hx
  exact h (s.setReg_reg_of_ne b (Ne.symm hx))

/-- FX65 loads `V0` to `Vx`, so it changes `VF` only as its last register (43_index_memory.md R145). -/
theorem exec_ldVxMem_vf {x : Reg} {s t : State} (h : exec (.ldVxMem x) s = .next t)
    (hc : t.reg vf ≠ s.reg vf) : x = vf := by
  rcases exec_effect h with ⟨c, rfl, -⟩ | ⟨-, -, rfl⟩
  · exact absurd (s.takeFatal_reg _ _ _ vf) hc
  · by_contra hx
    have hlt : x.val < vf.val := Fin.lt_def.mp (lt_of_le_of_ne (Fin.le_last x) hx)
    refine hc ?_
    rw [State.setRegs_reg, if_pos (Nat.zero_le _), List.getD_eq_default]
    simpa using hlt

/-- Settles O45: of the instructions that may write registers, each without a flag writes its destination only, FX65
those up to it. -/
theorem vfIsWrittenOnlyAsFlagOrDestination : Obligations.VfIsWrittenOnlyAsFlagOrDestination := by
  intro s t i h hc
  have hm : .regs ∈ writes i := regs_mem_writes_of_reg_ne h hc
  cases i with
  | ldVxMem x => exact exec_ldVxMem_vf h hc
  | ldImm x nn | addImm x nn | ldReg x y | or x y | and x y | xor x y | ldVxDt x =>
    cases h
    exact State.eq_of_setReg_reg_ne hc
  | rnd x nn =>
    cases h
    exact State.eq_of_setReg_reg_ne (s := s.afterDraw) hc
  | addReg | sub | shr | subn | shl | drw => trivial
  | _ => simp [writes] at hm

end Sys2Proof.Machine
end

section
/-! The stack's bounds (10_state.md R26, R27). -/

namespace Sys2Proof.Machine

/-- A call with room in the stack pushes one entry and raises nothing (41_control_flow.md R102). -/
theorem exec_call_of_room {s : State} (h : s.sp.val < 16) (nnn : BitVec 12) :
    ∃ t, exec (.call nnn) s = .next t ∧ t.halt = s.halt ∧ t.sp.val = s.sp.val + 1 := by
  rcases execCall_cases nnn s with ⟨hfull, -⟩ | ⟨_, e⟩
  · simp [hfull] at h
  · exact ⟨_, e, rfl, rfl⟩

/-- Nested calls that fit in the stack all succeed. -/
theorem foldl_call_of_room (targets : List (BitVec 12)) {s : State} (h : s.sp.val + targets.length ≤ 16) :
    ∃ t, targets.foldl (fun r nnn => thenDo r (exec (.call nnn))) (.next s) = .next t ∧
      t.halt = s.halt ∧ t.sp.val = s.sp.val + targets.length := by
  induction targets generalizing s with
  | nil => exact ⟨s, rfl, rfl, rfl⟩
  | cons nnn rest ih =>
    rw [List.length_cons] at h
    obtain ⟨u, hu, hhalt, hsp⟩ := exec_call_of_room (s := s) (by omega) nnn
    obtain ⟨t, ht, hhalt', hsp'⟩ := ih (s := u) (by omega)
    refine ⟨t, ?_, hhalt'.trans hhalt, ?_⟩
    · rw [List.foldl_cons, thenDo_of_next, hu, ht]
    · rw [List.length_cons]
      omega

theorem exec_call_overflows {s : State} (h : s.sp = 16) (nnn : BitVec 12) :
    RaisesFatal .stackOverflow (.call nnn) s := by
  rcases execCall_cases nnn s with ⟨-, e⟩ | ⟨hroom, -⟩
  · exact e
  · simp [h] at hroom

theorem exec_ret_underflows {s : State} (h : s.sp = 0) (mid : BitVec 8) :
    RaisesFatal .stackUnderflow (.ret mid) s := by
  rcases execRet_cases mid s with ⟨-, e⟩ | ⟨n, _, hsp, -⟩
  · exact e
  · simp [h, Fin.ext_iff] at hsp

/-- Settles O17: sixteen calls fill the empty stack, by induction on the calls; the next one finds it full. -/
theorem sixteenNestedCallsThenOverflow : Obligations.SixteenNestedCallsThenOverflow := by
  intro s targets last mid hsp hlen
  obtain ⟨t, ht, hhalt, hsp'⟩ := foldl_call_of_room targets (s := s) (by simp [hsp, hlen])
  have hfull : t.sp = 16 := Fin.ext (by simp [hsp', hsp, hlen])
  exact ⟨⟨t, ht, hhalt, hfull, exec_call_overflows hfull last⟩, exec_ret_underflows hsp mid⟩

end Sys2Proof.Machine
end

section
/-! Nothing in a step reads the output ports back (10_state.md R39, 60_exceptions.md R197): the pieces of a step commute
with `State.withAside`, as the instructions do (`exec_withAside`). -/

namespace Sys2Proof.Machine

theorem State.release_of_waiting {s : State} {r : Reg} (h : s.wait = some r) (k : Key) :
    s.release k = { s.setReg r (BitVec.ofNat 8 k.val) with wait := none } := by
  simp [State.release, h]

theorem State.release_of_running {s : State} (h : s.wait = none) (k : Key) : s.release k = s := by
  simp [State.release, h]

theorem State.release_withAside (s : State) (p : Phase) (d : List Diag) (o : Option FrameOut) (k : Key) :
    (s.withAside p d o).release k = (s.release k).withAside p d o := by
  rcases hw : s.wait with _ | r
  · rw [State.release_of_running hw, State.release_of_running (s := s.withAside p d o) hw]
  · rw [State.release_of_waiting hw, State.release_of_waiting (s := s.withAside p d o) hw]
    rfl

theorem State.applyEvent_withAside (s : State) (p : Phase) (d : List Diag) (o : Option FrameOut) (e : KeyEvent) :
    (s.withAside p d o).applyEvent e = (s.applyEvent e).withAside p d o := by
  cases e with
  | down k => rfl
  | up k => exact State.release_withAside { s with keys := s.keys.set k false } p d o k

theorem State.applyEvents_withAside (s : State) (p : Phase) (d : List Diag) (o : Option FrameOut)
    (events : List KeyEvent) :
    (s.withAside p d o).applyEvents events = (s.applyEvents events).withAside p d o := by
  induction events generalizing s with
  | nil => rfl
  | cons e rest ih =>
    calc (s.withAside p d o).applyEvents (e :: rest)
      _ = ((s.applyEvent e).withAside p d o).applyEvents rest :=
        congrArg (·.applyEvents rest) (s.applyEvent_withAside p d o e)
      _ = (s.applyEvents (e :: rest)).withAside p d o := ih (s.applyEvent e)

/-- The input phase does the same whatever `phase`, `diags` and `shown` are. -/
theorem State.inputPhase_withAside (s : State) (p : Phase) (d : List Diag) (o : Option FrameOut) :
    (s.withAside p d o).inputPhase = s.inputPhase.withAside p d o :=
  s.afterEvents.applyEvents_withAside p d o s.frameEvents

/-- The bound check reads `PC` and the policy, and adds its event to whatever events there are. -/
theorem State.checkPc_withAside (s : State) (p : Phase) (d : List Diag) (o : Option FrameOut) :
    ∃ d', (s.withAside p d o).checkPc = s.checkPc.withAside p d' o := by
  have hin : (s.withAside p d o).pcInBounds = s.pcInBounds := rfl
  have hcfg : (s.withAside p d o).cfg = s.cfg := rfl
  rw [State.checkPc, State.checkPc, hin, hcfg]
  split
  · exact ⟨d, rfl⟩
  · cases s.cfg.pcPolicy with
    | reset => exact ⟨d ++ [.pcReset s.pc], rfl⟩
    | fatal => exact ⟨d, rfl⟩

theorem fetchAndExec_withAside (s : State) (p : Phase) (d : List Diag) (o : Option FrameOut) :
    ∃ d', fetchAndExec (s.withAside p d o) =
      thenDo (fetchAndExec s) fun t => .next (t.withAside p d' o) := by
  have hread : memReadWord (s.withAside p d o) (s.withAside p d o).pc.toNat = memReadWord s s.pc.toNat := rfl
  rw [fetchAndExec, fetchAndExec, hread]
  cases memReadWord s s.pc.toNat with
  | next op => exact ⟨d ++ emits (decode op) s.advance, exec_withAside (decode op) s.advance p d o⟩
  | fault e => exact ⟨d, rfl⟩
  | refused e => exact ⟨d, rfl⟩

/-- A cycle does the same whatever `phase`, `diags` and `shown` are, but for the events it adds. -/
theorem cycle_withAside (s : State) (p : Phase) (d : List Diag) (o : Option FrameOut) :
    ∃ d', cycle (s.withAside p d o) = thenDo (cycle s) fun t => .next (t.withAside p d' o) := by
  have hhalt : (s.withAside p d o).halt = s.halt := rfl
  have hwait : (s.withAside p d o).wait = s.wait := rfl
  obtain ⟨d₁, hcheck⟩ := s.checkPc_withAside p d o
  have hhalt' : (s.checkPc.withAside p d₁ o).halt = s.checkPc.halt := rfl
  rw [cycle, cycle, hhalt, hwait, hcheck, hhalt']
  split
  · exact ⟨d, rfl⟩
  · split
    · exact ⟨d, rfl⟩
    · split
      · exact ⟨d₁, rfl⟩
      · exact fetchAndExec_withAside s.checkPc p d₁ o

theorem step_of_halted {s : State} (h : s.halt.isSome) : step s = .next s := if_pos h

theorem step_of_input {s : State} (hh : s.halt = none) (hp : s.phase = .input) : step s = .next s.beginFrame := by
  simp [step, hh, hp]

theorem step_of_slot {s : State} {left : Nat} (hh : s.halt = none) (hp : s.phase = .slots (left + 1)) :
    step s = slot left s := by
  simp [step, hh, hp]

theorem step_of_slots_used {s : State} (hh : s.halt = none) (hp : s.phase = .slots 0) :
    step s = .next s.endFrame := by
  simp [step, hh, hp]

/-- Each kind of step does the same with other output ports there; only the end of a frame writes `shown`, and not from
what was there. -/
theorem step_withAside {s t : State} (d : List Diag) (o : Option FrameOut) (h : step s = .next t) :
    ∃ d' o', step (s.withAside s.phase d o) = .next (t.withAside t.phase d' o') := by
  rcases step_cases s with ⟨hh, e⟩ | ⟨hh, hp, e⟩ | ⟨left, hh, hp, e⟩ | ⟨hh, hp, e⟩ <;> rw [e] at h
  · cases h
    exact ⟨d, o, step_of_halted hh⟩
  · cases h
    refine ⟨d, o, ?_⟩
    rw [step_of_input (s := s.withAside s.phase d o) hh hp, State.beginFrame, State.inputPhase_withAside]
    rfl
  · obtain ⟨u, hu, ht⟩ := thenDo_next h
    cases ht
    obtain ⟨d', hcycle⟩ := cycle_withAside s s.phase d o
    refine ⟨d', o, ?_⟩
    rw [step_of_slot (s := s.withAside s.phase d o) hh hp, slot, hcycle, hu]
    rfl
  · cases h
    exact ⟨d, s.endFrame.shown, step_of_slots_used hh hp⟩

/-- Settles O50: `step_withAside`, the phase being the state's own. -/
theorem outputPortsAreNeverReadBack : Obligations.OutputPortsAreNeverReadBack :=
  fun _ _ diags shown h => step_withAside diags shown h

end Sys2Proof.Machine
end

section
/-! The state after construction (10_state.md R38, 20_memory.md R58). -/

namespace Sys2Proof.Machine

/-- Settles O59: memory lists no cell, the core is not halted, and no slot is left. -/
theorem resetMeetsTheInvariant : Obligations.ResetMeetsTheInvariant :=
  ⟨⟨List.Pairwise.nil, fun _ hc => absurd hc List.not_mem_nil⟩,
    fun _ hf => absurd hf (Option.not_mem_none _), rfl⟩

/-- Outside the font, memory holds 0 before the ROM is copied in (20_memory.md R58). -/
theorem Memory.initial_of_outside_font {cfg : Config} {a : Nat}
    (h : a < cfg.fontBase.val ∨ cfg.fontBase.val + 80 ≤ a) : Memory.initial cfg a = 0 :=
  if_neg (by omega)

/-- Row `row` of glyph `g` is byte `5 * g + row` of the font (10_state.md R33). -/
theorem Memory.initial_of_glyph_row (cfg : Config) (g : Fin 16) (row : Fin 5) :
    Memory.initial cfg (cfg.fontBase.val + 5 * g.val + row.val) = cfg.font[g][row] := by
  have hg := g.isLt
  have hr := row.isLt
  have hk : cfg.fontBase.val + 5 * g.val + row.val - cfg.fontBase.val = 5 * g.val + row.val := by omega
  have hdiv : (5 * g.val + row.val) / 5 = g.val := by omega
  have hmod : (5 * g.val + row.val) % 5 = row.val := by omega
  rw [Memory.initial, if_pos (by omega), hk, fontByte, dif_pos (by omega)]
  simp only [hdiv, hmod]
  rfl

/-- Settles O57: the registers, the stack, the display and the keys are constant, and the font and the zeros are those
of any configuration. -/
theorem resetStateHoldsTheConstructionValues : Obligations.ResetStateHoldsTheConstructionValues := by
  have hpixels : ∀ y x, State.reset.disp.pixel y x = false := Display.blank_pixel
  refine ⟨fun r => ?_, rfl, rfl, rfl, fun k => ?_, rfl, rfl, hpixels, fun k => ?_, rfl, rfl,
    fun g row => ?_, fun a ha => ?_, ?_⟩
  · simp [State.reset, State.reg]
  · simp [State.reset]
  · simp [State.reset]
  · exact Memory.initial_of_glyph_row Config.default g row
  · exact Memory.initial_of_outside_font (cfg := Config.default) ha
  · rfl

end Sys2Proof.Machine
end

section
/-! The invariant of the machine: what an instruction does to memory and to `HALT`, and from it that a step keeps memory
canonical, the halt precise and the budget bounded (20_memory.md R40, 60_exceptions.md R195, 40_cycle.md R93). -/

namespace Sys2Proof.Machine

/-- What an instruction does to memory: nothing, or the store of FX33 or FX55, all of it inside memory
(43_index_memory.md R143, R144). -/
theorem exec_memory_effect {i : Instr} {s t : State} (h : exec i s = .next t) :
    t.mem = s.mem ∨ ∃ (last : Nat) (bytes : List Byte),
      ((∃ x, i = .ldB x ∧ last = 2) ∨ ∃ x, i = .ldMemVx x ∧ last = x.val) ∧
      bytes.length = last + 1 ∧ s.effAddr last ≤ 0xFFF ∧
      t.mem = Memory.writeAll s.cfg s.mem (s.effAddr 0) bytes := by
  rcases exec_effect h with ⟨c, rfl, -⟩ | ⟨-, he⟩
  · exact .inl rfl
  · cases i with
    | ldB x =>
      obtain ⟨hrange, rfl⟩ := he
      exact .inr ⟨2, _, .inl ⟨x, rfl, rfl⟩, bcdDigits_length _, hrange, rfl⟩
    | ldMemVx x =>
      obtain ⟨hrange, rfl⟩ := he
      exact .inr ⟨x.val, _, .inr ⟨x, rfl, rfl⟩, s.regsTo_length x, hrange, rfl⟩
    | call nnn => obtain ⟨_, rfl⟩ := he; exact .inl rfl
    | ret mid => obtain ⟨_, _, -, rfl⟩ := he; exact .inl rfl
    | drw x y n => obtain ⟨-, rfl⟩ := he; exact .inl rfl
    | ldVxMem x => obtain ⟨-, rfl⟩ := he; exact .inl (s.setRegs_mem 0 _)
    | _ => cases h; simp

theorem exec_keeps_memory_wf {i : Instr} {s t : State} (hs : Memory.wf s.cfg s.mem)
    (h : exec i s = .next t) : Memory.wf t.cfg t.mem := by
  obtain ⟨hcfg, -⟩ := exec_keeps_frame h
  rw [hcfg]
  rcases exec_memory_effect h with hmem | ⟨last, bytes, -, hlen, hrange, hmem⟩ <;> rw [hmem]
  · exact hs
  · refine Memory.writeAll_wf hs ?_
    simp only [State.effAddr] at hrange ⊢
    omega

/-- What an instruction does to `HALT`: nothing, or a record of the address `PC` is put back to and of its own opcode,
with a cause other than the fetch's (60_exceptions.md R190, R195). -/
theorem exec_halt_effect {i : Instr} {s t : State} (h : exec i s = .next t) :
    t.halt = s.halt ∨ ∃ c, c ≠ .pcOutOfRange ∧ t.halt = some ⟨c, t.pc, some (encode i)⟩ := by
  rcases exec_effect h with ⟨c, rfl, hc, -⟩ | ⟨hhalt, -⟩
  · exact .inr ⟨c, hc, rfl⟩
  · exact .inl hhalt

theorem State.haltPrecise_of_running {s : State} (h : s.halt = none) : s.haltPrecise := by
  intro f hf
  simp [h] at hf

/-- A slot whose instruction ran from a running core ends in a precise halt or in none. -/
theorem State.afterSlot_haltPrecise {i : Instr} {s t : State} (hs : s.halt = none)
    (h : exec i s = .next t) (left : Nat) : (t.afterSlot left).haltPrecise := by
  rcases exec_halt_effect h with hhalt | ⟨c, hc, hhalt⟩
  · exact State.haltPrecise_of_running (hhalt.trans hs)
  · intro f hf
    obtain rfl : (⟨c, t.pc, some (encode i)⟩ : FaultRecord) = f := by simpa [hhalt] using hf
    exact ⟨rfl, by simp [hhalt], by simp [hc]⟩

/-- A slot leaves one slot fewer, or none in progress. -/
theorem State.afterSlot_within {t : State} {left ipf : Nat} (h : left ≤ ipf) :
    (t.afterSlot left).phase.within ipf := by
  rw [State.afterSlot_phase]
  split
  · rfl
  · exact decide_eq_true h

/-- Settles O60: by the kinds of step; only the instruction of a slot writes memory, and only it and the bound check
write `HALT`. -/
theorem stepKeepsTheInvariant : Obligations.StepKeepsTheInvariant := by
  rintro s t ⟨hwf, hprecise, hwithin⟩ h
  have hused : ∀ l, s.phase = .slots (l + 1) → l ≤ s.cfg.ipf := by
    intro l hp
    have hl : l + 1 ≤ s.cfg.ipf := by simpa [hp, Phase.within] using hwithin
    omega
  rcases step_effect h with ⟨-, -, rfl⟩ | ⟨hh, -, -, rfl⟩ | ⟨hh, -, -, rfl⟩ | ⟨l, hp, hh, -, -, rfl⟩ |
    ⟨l, -, -, -, -, -, -, rfl⟩ | ⟨l, hp, -, -, hcheck, u, -, hu, rfl⟩
  · exact ⟨hwf, hprecise, hwithin⟩
  · exact ⟨by simpa using hwf, State.haltPrecise_of_running (by simpa using hh), by simp [Phase.within]⟩
  · exact ⟨hwf, State.haltPrecise_of_running hh, rfl⟩
  · exact ⟨hwf, State.haltPrecise_of_running hh, decide_eq_true (hused l hp)⟩
  · refine ⟨hwf, fun f hf => ?_, rfl⟩
    obtain rfl := Option.some.inj hf
    exact ⟨rfl, rfl, by simp⟩
  · have hfetch : Memory.wf s.checkPc.advance.cfg s.checkPc.advance.mem := by simpa using hwf
    have hrun : s.checkPc.advance.halt = none := hcheck
    have hcfg : u.cfg = s.cfg := by simpa using (exec_keeps_frame hu).1
    have hmem : Memory.wf u.cfg u.mem := exec_keeps_memory_wf hfetch hu
    refine ⟨hmem, State.afterSlot_haltPrecise hrun hu l, ?_⟩
    rw [State.afterSlot_cfg, hcfg]
    exact State.afterSlot_within (hused l hp)

end Sys2Proof.Machine
end

section
/-! The stores: which bytes they change (20_memory.md R42, R45), and that the next step fetches what they stored
(20_memory.md R54). -/

namespace Sys2Proof.Machine

/-- A byte that a write of consecutive bytes changes is one of them. -/
theorem Memory.mem_range_of_read_writeAll_ne {cfg : Config} {m : Memory} {a b : Nat} {bytes : List Byte}
    (h : read cfg (writeAll cfg m a bytes) b ≠ read cfg m b) : a ≤ b ∧ b < a + bytes.length := by
  by_contra hout
  exact h (read_writeAll_outside cfg m (by omega))

@[simp] theorem State.checkPc_advance_effAddr (s : State) (k : Nat) : s.checkPc.advance.effAddr k = s.effAddr k := by
  simp [State.effAddr]

/-- Settles O44: memory changes only by an executed instruction, and that by its store at `I` to `I + last`. -/
theorem onlyStoresChangeMemory : Obligations.OnlyStoresChangeMemory := by
  intro s t a h hc
  obtain ⟨i, u, l, hn, hu, rfl, -⟩ := step_change_by_instr (p := .memory) h (by simp) fun hsame => hc (hsame a)
  obtain ⟨hcfg, -⟩ := exec_keeps_frame hu
  rw [State.afterSlot_readByte, ← s.checkPc_readByte, ← s.checkPc.advance_readByte, State.readByte, hcfg] at hc
  rcases exec_memory_effect hu with hmem | ⟨last, bytes, hi, hlen, hrange, hmem⟩ <;> rw [hmem] at hc
  · exact absurd rfl hc
  · obtain ⟨hlo, hhi⟩ := Memory.mem_range_of_read_writeAll_ne hc
    rw [State.checkPc_advance_effAddr] at hlo hhi hrange
    have hlast : a ≤ s.effAddr last := by simp only [State.effAddr] at hhi ⊢; omega
    rcases hi with ⟨x, rfl, rfl⟩ | ⟨x, rfl, rfl⟩
    · exact .inl ⟨x, hn, hlo, hlast, hlast.trans hrange⟩
    · exact .inr ⟨x, hn, hlo, hlast, hlast.trans hrange⟩

/-- `slotOf` is the instruction and then the count of the slot, in the operations of the cycle. -/
theorem slotOf_eq_thenDo (left : Nat) (s : State) (op : Word) :
    slotOf left s op = thenDo (exec (decode op) s.advance) fun t => .next (t.afterSlot left) := by
  simp only [slotOf, thenDo, State.advance]
  cases exec (decode op) { s with pc := s.pc + 2 } <;> rfl

/-- A step that executes runs the word at `PC`, the byte at the lower address high (40_cycle.md R84 to R86). -/
theorem step_of_executes {s : State} {left : Nat} (h : s.executes left) :
    step s = slotOf left s (opcodeOf (s.readByte s.pc.toNat) (s.readByte (s.pc.toNat + 1))) := by
  obtain ⟨hhalt, hwait, hphase, hpc⟩ := h
  have hcheck : s.checkPc = s := if_pos hpc
  have hfetch : cycle s = fetchAndExec s := by simp [cycle, hhalt, hwait, hcheck]
  rw [step_of_slot hhalt hphase, slot, hfetch, fetchAndExec, memReadWord_eq (of_decide_eq_true hpc), thenDo_of_next,
    slotOf_eq_thenDo]

/-- A store that raised no fatal error: `V0` to `Vx` are in memory, every other byte as it was (43_index_memory.md
R144). -/
theorem exec_ldMemVx_readByte {s t : State} {x : Reg} (hs : Memory.wf s.cfg s.mem)
    (h : exec (.ldMemVx x) s = .next t) (hrun : t.halt = none) (a : Nat) :
    t.readByte a = s.byteAfterStore x a := by
  rcases exec_effect h with ⟨c, rfl, -⟩ | ⟨-, hrange, rfl⟩
  · simp at hrun
  · simp only [State.effAddr] at hrange
    have hbound : s.effAddr 0 + (s.regsTo x).length ≤ 0x1000 := by
      simp only [State.effAddr, State.regsTo_length]
      omega
    by_cases ha : s.effAddr 0 ≤ a ∧ a ≤ s.effAddr x.val
    · obtain ⟨k, rfl⟩ := Nat.exists_eq_add_of_le ha.1
      have hkx : k ≤ x.val := by simp only [State.effAddr] at ha; omega
      have hk : k < (s.regsTo x).length := by rw [State.regsTo_length]; omega
      rw [State.byteAfterStore, if_pos ha, Nat.add_sub_cancel_left, State.readByte,
        Memory.read_writeAll_inside hs hbound hk, s.regsTo_getElem]
      exact congrArg s.reg (Fin.ext (Nat.mod_eq_of_lt (by omega)).symm)
    · rw [State.byteAfterStore, if_neg ha]
      exact Memory.read_writeAll_outside s.cfg s.mem (by
        simp only [State.effAddr, State.regsTo_length] at ha ⊢
        omega)

/-- A BCD store that raised no fatal error: the three digits are in memory, every other byte as it was
(43_index_memory.md R143). -/
theorem exec_ldB_readByte {s t : State} {x : Reg} (hs : Memory.wf s.cfg s.mem)
    (h : exec (.ldB x) s = .next t) (hrun : t.halt = none) (a : Nat) :
    t.readByte a = s.byteAfterBcd x a := by
  rcases exec_effect h with ⟨c, rfl, -⟩ | ⟨-, hrange, rfl⟩
  · simp at hrun
  · have hdigit : ∀ (k : Nat) (hk : k < 3), Memory.read s.cfg
        (Memory.writeAll s.cfg s.mem (s.effAddr 0) (bcdDigits (s.reg x))) (s.effAddr 0 + k) =
          (bcdDigits (s.reg x))[k] := by
      intro k hk
      exact Memory.read_writeAll_inside hs (by simp only [State.effAddr, bcdDigits_length] at hrange ⊢; omega) hk
    unfold State.byteAfterBcd
    split
    · next h0 => subst h0; exact hdigit 0 (by omega)
    · next h0 =>
      split
      · next h1 => subst h1; exact hdigit 1 (by omega)
      · next h1 =>
        split
        · next h2 => subst h2; exact hdigit 2 (by omega)
        · next h2 =>
          refine Memory.read_writeAll_outside s.cfg s.mem ?_
          simp only [State.effAddr, bcdDigits_length] at h0 h1 h2 ⊢
          omega

/-- Settles O32: the next step fetches the two bytes that memory then holds, and those are the stored ones. -/
theorem storedOpcodeIsFetchedAtOnce : Obligations.StoredOpcodeIsFetchedAtOnce := by
  intro s t x left hs ht
  have hrun : t.halt = none := ht.1
  constructor
  · intro h
    rw [step_of_executes ht, exec_ldMemVx_readByte hs h hrun, exec_ldMemVx_readByte hs h hrun]
  · intro h
    rw [step_of_executes ht, exec_ldB_readByte hs h hrun, exec_ldB_readByte hs h hrun]

end Sys2Proof.Machine
end

section
/-! Construction from any configuration and ROM (20_memory.md R58, 70_reset_and_hazards.md R220, R221). -/

namespace Sys2Proof.Machine

/-- The state that construction gives when the validation passes. -/
def State.constructed (cfg : Config) (rom : List Byte) : State :=
  { State.reset with cfg := cfg, mem := Memory.writeAll cfg [] romBase.toNat rom }

/-- The validation of R221. -/
theorem construct_check_iff (cfg : Config) (rom : List Byte) :
    (cfg.valid && rom.length ≤ romMax) = true ↔ 1 ≤ cfg.ipf ∧ cfg.ipf ≤ cfg.ipfMax ∧ rom.length ≤ 3584 := by
  simp [Config.valid, and_assoc]

theorem State.construct_of_invalid {cfg : Config} {rom : List Byte}
    (h : ¬(1 ≤ cfg.ipf ∧ cfg.ipf ≤ cfg.ipfMax ∧ rom.length ≤ 3584)) : State.construct cfg rom = none :=
  if_neg (mt (construct_check_iff cfg rom).mp h)

theorem State.construct_of_valid {cfg : Config} {rom : List Byte}
    (h : 1 ≤ cfg.ipf ∧ cfg.ipf ≤ cfg.ipfMax ∧ rom.length ≤ 3584) :
    State.construct cfg rom = some (State.constructed cfg rom) :=
  if_pos ((construct_check_iff cfg rom).mpr h)

theorem Memory.wf_nil (cfg : Config) : Memory.wf cfg [] :=
  ⟨List.Pairwise.nil, fun _ hc => absurd hc List.not_mem_nil⟩

theorem State.constructed_inv {cfg : Config} {rom : List Byte} (h : rom.length ≤ 3584) :
    (State.constructed cfg rom).inv :=
  ⟨Memory.writeAll_wf (Memory.wf_nil cfg) (show 0x200 + rom.length ≤ 0x1000 by omega),
    State.haltPrecise_of_running rfl, rfl⟩

/-- The ROM stands at 0x200. -/
theorem State.constructed_readByte_rom {cfg : Config} {rom : List Byte} (h : rom.length ≤ 3584) {k : Nat}
    (hk : k < rom.length) : (State.constructed cfg rom).readByte (0x200 + k) = rom[k] :=
  Memory.read_writeAll_inside (Memory.wf_nil cfg) (show 0x200 + rom.length ≤ 0x1000 by omega) hk

/-- Outside the ROM, memory holds what it held before the ROM was copied in. -/
theorem State.constructed_readByte_outside {cfg : Config} {rom : List Byte} {a : Nat}
    (h : a < 0x200 ∨ 0x200 + rom.length ≤ a) :
    (State.constructed cfg rom).readByte a = Memory.initial cfg a :=
  Memory.read_writeAll_outside cfg [] h

theorem State.reset_keepsAllBut_constructed (cfg : Config) (rom : List Byte) :
    State.reset.keepsAllBut (State.constructed cfg rom) [.memory, .config] := by
  simp [State.keepsAllBut_iff, State.constructed, State.reg]

/-- Settles O58: the font lies below the ROM, since `FONT_BASE` is below 0x1B0, so each byte reads as one of the
three. -/
theorem constructionLaysOutFontAndRom : Obligations.ConstructionLaysOutFontAndRom := by
  intro cfg rom
  refine ⟨State.construct_of_invalid, fun hpos hmax hlen => ?_⟩
  refine ⟨State.constructed cfg rom, State.construct_of_valid ⟨hpos, hmax, hlen⟩, rfl, State.constructed_inv hlen,
    fun g row => ?_, fun k hk => State.constructed_readByte_rom hlen hk, fun a hfont hrom => ?_,
    State.reset_keepsAllBut_constructed cfg rom⟩
  · have hbelow : cfg.fontBase.val + 5 * g.val + row.val < 0x200 := by omega
    rw [State.constructed_readByte_outside (.inl hbelow), Memory.initial_of_glyph_row]
  · rw [State.constructed_readByte_outside hrom, Memory.initial_of_outside_font hfont]

end Sys2Proof.Machine
end

section
/-! The fields of a word packed again, the inverse of the field laws, and the decoder's two levels undone by the encoder
(30_encoding.md R61, R64 to R66). -/

namespace Sys2Proof

@[simp] theorem regBits_fieldY (op : Word) : regBits (fieldY op) = bitsY op := rfl

theorem packXNN_of_fields {op : Word} {f : BitVec 4} {nn : Byte} (hf : fieldF op = f) (hnn : fieldNN op = nn) :
    packXNN f (regBits (fieldX op)) nn = op := by
  subst hf hnn
  apply BitVec.eq_of_toNat_eq
  rw [packXNN_toNat, fieldF_toNat, regBits_toNat, fieldX_val, fieldNN_toNat]
  omega

theorem packXYN_of_fields {op : Word} {f n : BitVec 4} (hf : fieldF op = f) (hn : fieldN op = n) :
    packXYN f (regBits (fieldX op)) (bitsY op) n = op := by
  subst hf hn
  apply BitVec.eq_of_toNat_eq
  rw [packXYN_toNat, fieldF_toNat, regBits_toNat, fieldX_val, bitsY_toNat, fieldN_toNat]
  omega

theorem packNNN_of_fieldF {op : Word} {f : BitVec 4} (hf : fieldF op = f) : packNNN f (fieldNNN op) = op := by
  subst hf
  apply BitVec.eq_of_toNat_eq
  rw [packNNN_toNat, fieldF_toNat, fieldNNN_toNat]
  omega

theorem packMid_of_fields {op : Word} {f n : BitVec 4} (hf : fieldF op = f) (hn : fieldN op = n) :
    packMid f (fieldMid op) n = op := by
  subst hf hn
  apply BitVec.eq_of_toNat_eq
  rw [packMid_toNat, fieldF_toNat, fieldMid_toNat, fieldN_toNat]
  omega

theorem encode_decode0 {op : Word} (hf : fieldF op = 0x0) : encode (decode0 op) = op := by
  unfold decode0
  split
  case h_3 => rfl
  all_goals exact packMid_of_fields hf ‹_›

theorem encode_decode8 {op : Word} (hf : fieldF op = 0x8) : encode (decode8 op) = op := by
  unfold decode8
  split
  case h_10 => rfl
  all_goals exact packXYN_of_fields hf ‹_›

theorem encode_decodeE {op : Word} (hf : fieldF op = 0xE) : encode (decodeE op) = op := by
  unfold decodeE
  split
  case h_3 => rfl
  all_goals exact packXYN_of_fields hf ‹_›

theorem encode_decodeF {op : Word} (hf : fieldF op = 0xF) : encode (decodeF op) = op := by
  unfold decodeF
  split
  case h_10 => rfl
  all_goals exact packXNN_of_fields hf ‹_›

/-- The last arm of the first-level dispatch is family F. -/
theorem nibble_eq_F (f : BitVec 4) (h0 : f ≠ 0x0) (h1 : f ≠ 0x1) (h2 : f ≠ 0x2) (h3 : f ≠ 0x3) (h4 : f ≠ 0x4)
    (h5 : f ≠ 0x5) (h6 : f ≠ 0x6) (h7 : f ≠ 0x7) (h8 : f ≠ 0x8) (h9 : f ≠ 0x9) (hA : f ≠ 0xA) (hB : f ≠ 0xB)
    (hC : f ≠ 0xC) (hD : f ≠ 0xD) (hE : f ≠ 0xE) : f = 0xF := by
  bv_omega

/-- The encoder gives back every word: each arm of the dispatch keeps all the fields of the word. -/
theorem encode_decode (op : Word) : encode (decode op) = op := by
  unfold decode
  split
  case h_1 hf => exact encode_decode0 hf
  case h_9 hf => exact encode_decode8 hf
  case h_15 hf => exact encode_decodeE hf
  case h_16 => exact encode_decodeF (by apply nibble_eq_F <;> assumption)
  case h_2 hf | h_3 hf | h_11 hf | h_12 hf => exact packNNN_of_fieldF hf
  case h_4 hf | h_5 hf | h_7 hf | h_8 hf | h_13 hf => exact packXNN_of_fields hf rfl
  case h_6 hf | h_10 hf | h_14 hf => exact packXYN_of_fields hf rfl

end Sys2Proof
end

section
/-! The rows of the opcode map as values of the fields, and from it that the decoder and the map agree
(30_encoding.md R66, R68). -/

namespace Sys2Proof

/-- A row reads a word through its fields. -/
theorem Row.fields_of_takes {r : Row} {op : Word} (h : r.takes op = true) :
    fieldF op &&& fieldF r.mask = fieldF r.pattern ∧ fieldN op &&& fieldN r.mask = fieldN r.pattern ∧
      fieldNN op &&& fieldNN r.mask = fieldNN r.pattern := by
  have hp : op &&& r.mask = r.pattern := eq_of_beq h
  rw [← hp]
  simp [fieldF, fieldN, fieldNN, BitVec.extractLsb'_and]

/-- The masks of all rows keep `F`; in the families of the second-level dispatch on `N` they keep `N`, in family F
`NN` (30_encoding.md R65). -/
theorem opcodeMap_masks : ∀ r ∈ opcodeMap, fieldF r.mask = 0xF ∧
    (fieldF r.pattern ∈ [0x0, 0x8, 0xE] → fieldN r.mask = 0xF) ∧
    (fieldF r.pattern = 0xF → fieldNN r.mask = 0xFF) := by
  decide

theorem opcodeMap_N_of_family0 : ∀ r ∈ opcodeMap, fieldF r.pattern = 0x0 → fieldN r.pattern ∈ [0x0, 0xE] := by
  decide

theorem opcodeMap_N_of_family8 : ∀ r ∈ opcodeMap, fieldF r.pattern = 0x8 →
    fieldN r.pattern ∈ [0x0, 0x1, 0x2, 0x3, 0x4, 0x5, 0x6, 0x7, 0xE] := by
  decide

theorem opcodeMap_N_of_familyE : ∀ r ∈ opcodeMap, fieldF r.pattern = 0xE → fieldN r.pattern ∈ [0xE, 0x1] := by
  decide

theorem opcodeMap_NN_of_familyF : ∀ r ∈ opcodeMap, fieldF r.pattern = 0xF →
    fieldNN r.pattern ∈ [0x07, 0x0A, 0x15, 0x18, 0x1E, 0x29, 0x33, 0x55, 0x65] := by
  decide

theorem assigned_iff (op : Word) : assigned op = true ↔ ∃ r ∈ opcodeMap, r.takes op = true :=
  List.any_eq_true

theorem fieldF_pattern_of_takes {r : Row} {op : Word} (hr : r ∈ opcodeMap) (h : r.takes op = true) :
    fieldF r.pattern = fieldF op := by
  obtain ⟨hmask, -, -⟩ := opcodeMap_masks r hr
  obtain ⟨hF, -, -⟩ := Row.fields_of_takes h
  rw [← hF, hmask]
  exact BitVec.and_allOnes

theorem fieldN_pattern_of_takes {r : Row} {op : Word} (hr : r ∈ opcodeMap) (h : r.takes op = true)
    (hf : fieldF op ∈ [0x0, 0x8, 0xE]) : fieldN r.pattern = fieldN op := by
  obtain ⟨-, hmask, -⟩ := opcodeMap_masks r hr
  obtain ⟨-, hN, -⟩ := Row.fields_of_takes h
  rw [← hN, hmask (fieldF_pattern_of_takes hr h ▸ hf)]
  exact BitVec.and_allOnes

theorem fieldNN_pattern_of_takes {r : Row} {op : Word} (hr : r ∈ opcodeMap) (h : r.takes op = true)
    (hf : fieldF op = 0xF) : fieldNN r.pattern = fieldNN op := by
  obtain ⟨-, -, hmask⟩ := opcodeMap_masks r hr
  obtain ⟨-, -, hNN⟩ := Row.fields_of_takes h
  rw [← hNN, hmask ((fieldF_pattern_of_takes hr h).trans hf)]
  exact BitVec.and_allOnes

/-- A word of family 0, 8 or E whose `N` no row of the family has is unassigned. -/
theorem unassigned_of_fieldN {op : Word} {f : BitVec 4} {ns : List (BitVec 4)} (hf : fieldF op = f)
    (hfamily : f ∈ [0x0, 0x8, 0xE]) (hrows : ∀ r ∈ opcodeMap, fieldF r.pattern = f → fieldN r.pattern ∈ ns)
    (hn : fieldN op ∉ ns) : assigned op = false := by
  refine Bool.eq_false_iff.mpr fun h => hn ?_
  obtain ⟨r, hr, ht⟩ := (assigned_iff op).mp h
  rw [← fieldN_pattern_of_takes hr ht (hf ▸ hfamily)]
  exact hrows r hr ((fieldF_pattern_of_takes hr ht).trans hf)

/-- A word of family F whose `NN` no row of the family has is unassigned. -/
theorem unassigned_of_fieldNN {op : Word} {nns : List Byte} (hf : fieldF op = 0xF)
    (hrows : ∀ r ∈ opcodeMap, fieldF r.pattern = 0xF → fieldNN r.pattern ∈ nns)
    (hnn : fieldNN op ∉ nns) : assigned op = false := by
  refine Bool.eq_false_iff.mpr fun h => hnn ?_
  obtain ⟨r, hr, ht⟩ := (assigned_iff op).mp h
  rw [← fieldNN_pattern_of_takes hr ht hf]
  exact hrows r hr ((fieldF_pattern_of_takes hr ht).trans hf)

theorem wf_noHandler_of_unassigned {op : Word} (h : assigned op = false) : (Instr.noHandler op).wf = true := by
  rw [Instr.wf, h]
  rfl

theorem decode0_wf {op : Word} (hf : fieldF op = 0x0) : (decode0 op).wf = true := by
  unfold decode0
  split
  case h_3 =>
    exact wf_noHandler_of_unassigned (unassigned_of_fieldN hf (by decide) opcodeMap_N_of_family0 (by simp_all))
  all_goals rfl

theorem decode8_wf {op : Word} (hf : fieldF op = 0x8) : (decode8 op).wf = true := by
  unfold decode8
  split
  case h_10 =>
    exact wf_noHandler_of_unassigned (unassigned_of_fieldN hf (by decide) opcodeMap_N_of_family8 (by simp_all))
  all_goals rfl

theorem decodeE_wf {op : Word} (hf : fieldF op = 0xE) : (decodeE op).wf = true := by
  unfold decodeE
  split
  case h_3 =>
    exact wf_noHandler_of_unassigned (unassigned_of_fieldN hf (by decide) opcodeMap_N_of_familyE (by simp_all))
  all_goals rfl

theorem decodeF_wf {op : Word} (hf : fieldF op = 0xF) : (decodeF op).wf = true := by
  unfold decodeF
  split
  case h_10 =>
    exact wf_noHandler_of_unassigned (unassigned_of_fieldNN hf opcodeMap_NN_of_familyF (by simp_all))
  all_goals rfl

/-- The four second-level dispatches end in the no-op on unassigned words only. -/
theorem decode_wf (op : Word) : (decode op).wf = true := by
  unfold decode
  split
  case h_1 hf => exact decode0_wf hf
  case h_9 hf => exact decode8_wf hf
  case h_15 hf => exact decodeE_wf hf
  case h_16 => exact decodeF_wf (by apply nibble_eq_F <;> assumption)
  all_goals rfl

/-- Settles O3: the dispatch loses no field, and its no-op arms are reached by unassigned words only. -/
theorem encodeOfDecodeIsTheOpcode : Obligations.EncodeOfDecodeIsTheOpcode :=
  fun op => ⟨encode_decode op, decode_wf op⟩

end Sys2Proof
end

section
/-! Matching against the opcode map and decoding agree (30_encoding.md R66). -/

namespace Sys2Proof

/-- Every instruction but the no-op has a row of the map. -/
theorem row_mem_opcodeMap_or_noHandler (i : Instr) : i.row ∈ opcodeMap ∨ ∃ op, i = .noHandler op := by
  cases i with
  | noHandler op => exact .inr ⟨op, rfl⟩
  | _ => exact .inl (by simp [opcodeMap, Instr.row])

/-- The fallback row takes every word, so an instruction's row takes its word with no premise. -/
theorem row_takes_encode (i : Instr) : i.row.takes (encode i) = true := by
  cases i with
  | cls mid => exact Laws.EncodesRow.cls mid rfl
  | ret mid => exact Laws.EncodesRow.ret mid rfl
  | jp nnn => exact Laws.EncodesRow.jp nnn rfl
  | call nnn => exact Laws.EncodesRow.call nnn rfl
  | seImm x nn => exact Laws.EncodesRow.seImm x nn rfl
  | sneImm x nn => exact Laws.EncodesRow.sneImm x nn rfl
  | seReg x y ign => exact Laws.EncodesRow.seReg x y ign rfl
  | ldImm x nn => exact Laws.EncodesRow.ldImm x nn rfl
  | addImm x nn => exact Laws.EncodesRow.addImm x nn rfl
  | ldReg x y => exact Laws.EncodesRow.ldReg x y rfl
  | or x y => exact Laws.EncodesRow.or x y rfl
  | and x y => exact Laws.EncodesRow.and x y rfl
  | xor x y => exact Laws.EncodesRow.xor x y rfl
  | addReg x y => exact Laws.EncodesRow.addReg x y rfl
  | sub x y => exact Laws.EncodesRow.sub x y rfl
  | shr x y => exact Laws.EncodesRow.shr x y rfl
  | subn x y => exact Laws.EncodesRow.subn x y rfl
  | shl x y => exact Laws.EncodesRow.shl x y rfl
  | sneReg x y ign => exact Laws.EncodesRow.sneReg x y ign rfl
  | ldI nnn => exact Laws.EncodesRow.ldI nnn rfl
  | jpV0 nnn => exact Laws.EncodesRow.jpV0 nnn rfl
  | rnd x nn => exact Laws.EncodesRow.rnd x nn rfl
  | drw x y n => exact Laws.EncodesRow.drw x y n rfl
  | skp x ign => exact Laws.EncodesRow.skp x ign rfl
  | sknp x ign => exact Laws.EncodesRow.sknp x ign rfl
  | ldVxDt x => exact Laws.EncodesRow.ldVxDt x rfl
  | ldVxK x => exact Laws.EncodesRow.ldVxK x rfl
  | ldDtVx x => exact Laws.EncodesRow.ldDtVx x rfl
  | ldStVx x => exact Laws.EncodesRow.ldStVx x rfl
  | addIVx x => exact Laws.EncodesRow.addIVx x rfl
  | ldF x => exact Laws.EncodesRow.ldF x rfl
  | ldB x => exact Laws.EncodesRow.ldB x rfl
  | ldMemVx x => exact Laws.EncodesRow.ldMemVx x rfl
  | ldVxMem x => exact Laws.EncodesRow.ldVxMem x rfl
  | noHandler op => simp [Instr.row, Row.takes]

theorem row_decode_takes (op : Word) : (decode op).row.takes op = true := by
  simpa [encode_decode] using row_takes_encode (decode op)

theorem assigned_encode {i : Instr} (h : i.row ∈ opcodeMap) : assigned (encode i) = true :=
  (assigned_iff _).mpr ⟨i.row, h, row_takes_encode i⟩

/-- No word has the bits that two rows ask for: two different rows ask for different bits under the bits both keep. -/
theorem opcodeMap_disjoint : ∀ r ∈ opcodeMap, ∀ q ∈ opcodeMap,
    r.pattern &&& q.mask = q.pattern &&& r.mask → r = q := by
  decide

theorem row_eq_of_takes {op : Word} {r q : Row} (hr : r ∈ opcodeMap) (hq : q ∈ opcodeMap)
    (htr : r.takes op = true) (htq : q.takes op = true) : r = q := by
  have hr' : op &&& r.mask = r.pattern := eq_of_beq htr
  have hq' : op &&& q.mask = q.pattern := eq_of_beq htq
  refine opcodeMap_disjoint r hr q hq ?_
  rw [← hr', ← hq', BitVec.and_assoc, BitVec.and_assoc, BitVec.and_comm r.mask]

/-- The no-op carries the word it was decoded from. -/
theorem eq_of_decode_eq_noHandler {op w : Word} (h : decode op = .noHandler w) : w = op := by
  simpa [h, encode] using encode_decode op

theorem decode_eq_noHandler_of_unassigned {op : Word} (h : assigned op = false) : decode op = .noHandler op := by
  rcases row_mem_opcodeMap_or_noHandler (decode op) with hmem | ⟨w, hw⟩
  · simp [(assigned_iff op).mpr ⟨_, hmem, row_decode_takes op⟩] at h
  · rw [hw, eq_of_decode_eq_noHandler hw]

/-- An assigned word decodes to an instruction of a row, since the no-op the decoder gives is well-formed. -/
theorem row_decode_mem_of_assigned {op : Word} (h : assigned op = true) : (decode op).row ∈ opcodeMap := by
  rcases row_mem_opcodeMap_or_noHandler (decode op) with hmem | ⟨w, hw⟩
  · exact hmem
  · have hwf := decode_wf op
    simp [hw, eq_of_decode_eq_noHandler hw, Instr.wf, h] at hwf

/-- Settles O4: a word is taken by the row of its decoded instruction, and by at most one row of the map. -/
theorem decodeFollowsTheOpcodeMap : Obligations.DecodeFollowsTheOpcodeMap := by
  refine fun op => ⟨fun r hr ht => ?_, fun r hr q hq => row_eq_of_takes hr hq, fun h => ?_⟩
  · have hmem := row_decode_mem_of_assigned ((assigned_iff op).mpr ⟨r, hr, ht⟩)
    exact row_eq_of_takes hmem hr (row_decode_takes op) ht
  · refine decode_eq_noHandler_of_unassigned (Bool.eq_false_iff.mpr fun ha => ?_)
    obtain ⟨r, hr, ht⟩ := (assigned_iff op).mp ha
    simp [h r hr] at ht

/-- Decoding the packed word: the dispatch reads the literal fields, the operands are the fields that are left. -/
theorem decode_encode {i : Instr} (h : i.wf = true) : decode (encode i) = i := by
  cases i with
  | cls mid | ret mid => simp [encode, decode, decode0]
  | ldReg x y | or x y | and x y | xor x y | addReg x y | sub x y | shr x y | subn x y | shl x y =>
    simp [encode, decode, decode8]
  | skp x ign | sknp x ign => simp [encode, decode, decodeE]
  | ldVxDt x | ldVxK x | ldDtVx x | ldStVx x | addIVx x | ldF x | ldB x | ldMemVx x | ldVxMem x =>
    simp [encode, decode, decodeF]
  | noHandler op => exact decode_eq_noHandler_of_unassigned (by simpa [Instr.wf, encode] using h)
  | _ => simp [encode, decode]

/-- Settles O2: `decode_encode`; the no-op's word is unassigned, so no row takes it. -/
theorem decodeOfEncodeIsTheInstruction : Obligations.DecodeOfEncodeIsTheInstruction :=
  fun _ => decode_encode

/-- Settles O1: each word is closed, so the decoder runs on it. -/
theorem writtenWordsDecodeToTheirInstructions : Obligations.WrittenWordsDecodeToTheirInstructions := by
  unfold Obligations.WrittenWordsDecodeToTheirInstructions
  decide

end Sys2Proof
end

section
/-! The fields that an instruction does not use (30_encoding.md R67, R74). -/

namespace Sys2Proof.Machine

/-- A pop never reads the opcode; only the fatal error on the empty stack records it. -/
theorem exec_ret_congr {s : State} (h : s.sp ≠ 0) (mid mid' : BitVec 8) :
    exec (.ret mid) s = exec (.ret mid') s := by
  change execRet mid s = execRet mid' s
  unfold execRet
  rcases s.pop_cases with ⟨h0, -⟩ | ⟨n, hn, -, hpop⟩
  · exact absurd h0 h
  · rw [hpop]

/-- Settles O5: no meaning but 00EE's on an empty stack reads the field, and the rows leave its bits open. -/
theorem unusedFieldsHaveNoEffect : Obligations.UnusedFieldsHaveNoEffect := by
  intro s x y z mid mid' n n'
  refine ⟨rfl, fun h => exec_ret_congr h mid mid', rfl, rfl, rfl, rfl, rfl, rfl, fun i hi => assigned_encode ?_⟩
  simp only [List.mem_cons, List.not_mem_nil, or_false] at hi
  rcases hi with rfl | rfl | rfl | rfl | rfl | rfl | rfl | rfl <;> simp [Instr.row, opcodeMap]

end Sys2Proof.Machine
end

section
/-! A frame is its steps (40_cycle.md R91): the model's `phase` only counts the slots, so the steps' cycles are those of
`runSlots`. -/

namespace Sys2Proof.Machine

/-- `s` in another piece of the frame. -/
def State.inPhase (s : State) (p : Phase) : State := { s with phase := p }

@[simp] theorem State.inPhase_halt (s : State) (p : Phase) : (s.inPhase p).halt = s.halt := rfl

theorem State.inPhase_self {s : State} {p : Phase} (h : s.phase = p) : s.inPhase p = s := by
  subst h
  rfl

theorem State.afterSlot_of_halted {s : State} (h : s.halt.isSome) (left : Nat) :
    s.afterSlot left = s.inPhase .input := by
  simp [State.afterSlot, State.inPhase, h]

theorem State.afterSlot_of_running {s : State} (h : s.halt = none) (left : Nat) :
    s.afterSlot left = s.inPhase (.slots left) := by
  simp [State.afterSlot, State.inPhase, h]

theorem State.checkPc_inPhase (s : State) (p : Phase) : (s.inPhase p).checkPc = s.checkPc.inPhase p := by
  have hin : (s.inPhase p).pcInBounds = s.pcInBounds := rfl
  have hcfg : (s.inPhase p).cfg = s.cfg := rfl
  rw [State.checkPc, State.checkPc, hin, hcfg]
  split
  · rfl
  · cases s.cfg.pcPolicy <;> rfl

/-- `exec_withAside` with the output ports as they were. -/
theorem exec_inPhase (i : Instr) (s : State) (p : Phase) :
    exec i (s.inPhase p) = thenDo (exec i s) fun t => .next (t.inPhase p) := by
  obtain ⟨t, ht⟩ := exec_answers_next i s
  obtain ⟨-, -, -, -, hshown, -⟩ := exec_keeps_frame ht
  have haside : exec i (s.inPhase p) =
      thenDo (exec i s) fun t => .next (t.withAside p (s.diags ++ emits i s) s.shown) :=
    exec_withAside i s p s.diags s.shown
  rw [haside, ht, thenDo_of_next, thenDo_of_next, ← exec_diags ht, ← hshown]
  rfl

theorem fetchAndExec_inPhase (s : State) (p : Phase) :
    fetchAndExec (s.inPhase p) = thenDo (fetchAndExec s) fun t => .next (t.inPhase p) := by
  have hread : memReadWord (s.inPhase p) (s.inPhase p).pc.toNat = memReadWord s s.pc.toNat := rfl
  rw [fetchAndExec, fetchAndExec, hread]
  cases memReadWord s s.pc.toNat with
  | next op => exact exec_inPhase (decode op) s.advance p
  | fault e => rfl
  | refused e => rfl

/-- A cycle neither reads nor writes the piece of the frame. -/
theorem cycle_inPhase (s : State) (p : Phase) :
    cycle (s.inPhase p) = thenDo (cycle s) fun t => .next (t.inPhase p) := by
  have hwait : (s.inPhase p).wait = s.wait := rfl
  rw [cycle, cycle, hwait, s.checkPc_inPhase, State.inPhase_halt, State.inPhase_halt]
  split
  · rfl
  · split
    · rfl
    · split
      · rfl
      · exact fetchAndExec_inPhase s.checkPc p

theorem cycle_keeps_phase {s t : State} (h : cycle s = .next t) : t.phase = s.phase := by
  have hself := cycle_inPhase s s.phase
  rw [State.inPhase_self rfl, h, thenDo_of_next] at hself
  injection hself with ht
  calc t.phase
    _ = (t.inPhase s.phase).phase := congrArg State.phase ht
    _ = s.phase := rfl

theorem run_succ_of_step {s t : State} (h : step s = .next t) (k : Nat) :
    Host.Core.run Sys2Proof.core (k + 1) s = Host.Core.run Sys2Proof.core k t := by
  have hcore : Host.Core.step Sys2Proof.core s = .next t := h
  simp only [Host.Core.run, hcore]

theorem run_of_halted {s : State} (h : s.halt.isSome) (k : Nat) : Host.Core.run Sys2Proof.core k s = .next s := by
  induction k with
  | zero => rfl
  | succ k ih => rw [run_succ_of_step (step_of_halted h), ih]

theorem runSlots_of_halted {s : State} (h : s.halt.isSome) (n : Nat) : runSlots n s = .next s := by
  cases n with
  | zero => rfl
  | succ n => exact if_pos h

theorem runSlots_succ_of_running {s t : State} (hrun : s.halt = none) (h : cycle s = .next t) (n : Nat) :
    runSlots (n + 1) s = runSlots n t := by
  simp [runSlots, hrun, h]

/-- What R91 does after the slots: the timer and output phases, unless a fatal error has ended the frame (R97). -/
def State.closeFrame (s : State) : State := if s.halt.isSome then s else s.timerPhase.outputPhase

theorem State.closeFrame_of_halted {s : State} (h : s.halt.isSome) : s.closeFrame = s := if_pos h

theorem State.closeFrame_of_running {s : State} (h : s.halt = none) : s.closeFrame = s.timerPhase.outputPhase := by
  simp [State.closeFrame, h]

theorem frame_of_running {s : State} (h : s.halt = none) :
    frame s = thenDo (runSlots s.cfg.ipf s.inputPhase) fun t => .next t.closeFrame := by
  simp [frame, h, State.closeFrame]

theorem step_inPhase_slots_zero {s : State} (hrun : s.halt = none) (hp : s.phase = .input) :
    step (s.inPhase (.slots 0)) = .next s.closeFrame := by
  have hend : (s.inPhase (.slots 0)).endFrame = s.timerPhase.outputPhase.inPhase .input := rfl
  rw [step_of_slots_used (s := s.inPhase (.slots 0)) hrun rfl, hend, State.closeFrame_of_running hrun]
  exact congrArg _ (State.inPhase_self hp)

theorem step_inPhase_slots_succ {s t : State} (hrun : s.halt = none) (h : cycle s = .next t) (n : Nat) :
    step (s.inPhase (.slots (n + 1))) = .next (t.afterSlot n) := by
  rw [step_of_slot (s := s.inPhase (.slots (n + 1))) hrun rfl, slot, cycle_inPhase, h]
  rfl

/-- The steps of `n` slots and of the frame's end, by induction on the slots: a fatal error leaves steps that change
nothing where R91 ends the frame. -/
theorem run_slots_eq_runSlots (n : Nat) {s : State} (hrun : s.halt = none) (hp : s.phase = .input) :
    Host.Core.run Sys2Proof.core (n + 1) (s.inPhase (.slots n)) =
      thenDo (runSlots n s) fun t => .next t.closeFrame := by
  induction n generalizing s with
  | zero => exact run_succ_of_step (step_inPhase_slots_zero hrun hp) 0
  | succ n ih =>
    obtain ⟨t, ht⟩ := cycle_answers_next s
    have htp : t.phase = .input := (cycle_keeps_phase ht).trans hp
    rw [run_succ_of_step (step_inPhase_slots_succ hrun ht n), runSlots_succ_of_running hrun ht]
    cases hth : t.halt with
    | none => rw [State.afterSlot_of_running hth, ih hth htp]
    | some f =>
      have hhalted : t.halt.isSome := by simp [hth]
      rw [State.afterSlot_of_halted hhalted, State.inPhase_self htp, runSlots_of_halted hhalted, thenDo_of_next,
        State.closeFrame_of_halted hhalted]
      exact run_of_halted hhalted (n + 1)

/-- Settles O55: the first step is the input phase, the others are `run_slots_eq_runSlots`. -/
theorem frameIsItsSteps : Obligations.FrameIsItsSteps := by
  intro s hp
  cases hh : s.halt with
  | none =>
    have hphase : s.inputPhase.phase = .input := by simp [hp]
    rw [run_succ_of_step (step_of_input hh hp), frame_of_running hh]
    exact run_slots_eq_runSlots s.cfg.ipf (by simpa using hh) hphase
  | some f =>
    have hhalted : s.halt.isSome := by simp [hh]
    rw [frame, if_pos hhalted]
    exact run_of_halted hhalted _

end Sys2Proof.Machine
end

section
/-! Where `PC` goes (40_cycle.md R89): an instruction finds it past its own opcode, and only the control flow, the skips
and the fatal errors write it. -/

namespace Sys2Proof.Machine

/-- A step with an instruction to execute is that instruction and the count of its slot. -/
theorem step_of_nextInstr {s t : State} {i : Instr} (hn : s.nextInstr = some i) (h : step s = .next t) :
    s.checkPc.halt = none ∧ ∃ u l, exec i s.checkPc.advance = .next u ∧ t = u.afterSlot l := by
  rcases step_effect h with ⟨-, hnone, -⟩ | ⟨-, -, hnone, -⟩ | ⟨-, -, hnone, -⟩ | ⟨l, -, -, -, hnone, -⟩ |
    ⟨l, -, -, -, hnone, -⟩ | ⟨l, -, -, -, hcheck, u, hi, hu, ht⟩
  case inr.inr.inr.inr.inr =>
    obtain rfl : i = decode s.nextOpcode := Option.some.inj (hn.symm.trans hi)
    exact ⟨hcheck, u, l, hu, ht⟩
  all_goals simp [hn] at hnone

/-- A fatal error puts `PC` back to the instruction's own address (60_exceptions.md R195). -/
theorem exec_pc_of_halted {i : Instr} {s t : State} (h : exec i s = .next t) (hs : s.halt = none)
    (ht : t.halt ≠ none) : t.pc = s.pc - 2 := by
  rcases exec_effect h with ⟨c, rfl, -⟩ | ⟨hhalt, -⟩
  · rfl
  · exact absurd (hhalt.trans hs) ht

theorem exec_pc_of_not_mem_writes {i : Instr} {s t : State} (h : exec i s = .next t) (hi : .pc ∉ writes i) :
    t.pc = s.pc :=
  exec_keepsAllBut_writes h .pc hi

/-- The instructions that access memory write `PC` by their fatal error only (60_exceptions.md R193). -/
theorem exec_memory_access_pc {i : Instr} {s t : State} (h : exec i s = .next t) (ht : t.halt = none)
    (hi : (∃ x y n, i = .drw x y n) ∨ (∃ x, i = .ldB x) ∨ (∃ x, i = .ldMemVx x) ∨ (∃ x, i = .ldVxMem x)) :
    t.pc = s.pc := by
  rcases exec_effect h with ⟨c, rfl, -⟩ | ⟨-, he⟩
  · simp at ht
  · rcases hi with ⟨x, y, n, rfl⟩ | ⟨x, rfl⟩ | ⟨x, rfl⟩ | ⟨x, rfl⟩ <;> obtain ⟨-, rfl⟩ := he
    · exact s.draw_pc x y _
    · rfl
    · rfl
    · exact s.setRegs_pc 0 _

theorem exec_call_pc {nnn : BitVec 12} {s t : State} (h : exec (.call nnn) s = .next t) (ht : t.halt = none) :
    t.pc = zext16 nnn := by
  rcases exec_effect h with ⟨c, rfl, -⟩ | ⟨-, _, rfl⟩
  · simp at ht
  · rfl

theorem exec_ret_pc {mid : BitVec 8} {s t : State} (h : exec (.ret mid) s = .next t) (ht : t.halt = none) :
    ∃ k : Fin 16, k.val + 1 = s.sp.val ∧ t.pc = s.stack[k] := by
  rcases exec_effect h with ⟨c, rfl, -⟩ | ⟨-, n, hn, hsp, rfl⟩
  · simp at ht
  · exact ⟨⟨n, hn⟩, by simp [hsp], rfl⟩

theorem zext16_target_toNat (nnn : BitVec 12) : (zext16 nnn).toNat = nnn.toNat :=
  BitVec.toNat_setWidth_of_le (by decide)

/-- The greatest target of BNNN is 0xFFF + 0xFF, so the sum does not wrap (41_control_flow.md R107). -/
theorem zext16_target_add_toNat (nnn : BitVec 12) (b : Byte) :
    (zext16 nnn + zext16 b).toNat = nnn.toNat + b.toNat := by
  have hb : (zext16 b).toNat = b.toNat := BitVec.toNat_setWidth_of_le (by decide)
  rw [BitVec.toNat_add, zext16_target_toNat, hb]
  have := nnn.isLt
  have := b.isLt
  omega

/-- A skip on top of the advance (41_control_flow.md R108). -/
theorem State.advance_skipIf_pc (s : State) (c : Bool) :
    (s.advance.skipIf c).pc = s.pc + (if c then 4 else 2) := by
  cases c <;> simp [BitVec.add_assoc]

theorem State.advance_skipIf_not_pc (s : State) (c : Bool) :
    (s.advance.skipIf (!c)).pc = s.pc + (if c then 2 else 4) := by
  rw [State.advance_skipIf_pc]
  cases c <;> rfl

@[simp] theorem State.advance_keyHeld (s : State) (b : Byte) : s.advance.keyHeld b = s.keyHeld b := rfl

@[simp] theorem State.checkPc_keyHeld (s : State) (b : Byte) : s.checkPc.keyHeld b = s.keyHeld b := by
  simp [State.keyHeld]

/-- Settles O10: each instruction's own effect on `PC`, after the bound check and the advance. -/
theorem pcFollowsTheTable : Obligations.PcFollowsTheTable := by
  intro s t i hn h
  obtain ⟨hcheck, u, l, hu, rfl⟩ := step_of_nextInstr hn h
  refine ⟨fun ht => ?_, fun ht => ?_⟩
  · simpa using exec_pc_of_halted hu hcheck ht
  · cases i with
    | jp nnn => cases hu; exact zext16_target_toNat nnn
    | jpV0 nnn => cases hu; simpa using zext16_target_add_toNat nnn (s.reg 0)
    | call nnn => rw [State.afterSlot_pc, exec_call_pc hu ht, zext16_target_toNat]
    | ret mid => simpa using exec_ret_pc hu ht
    | seImm | sneImm | seReg | sneReg | skp =>
      cases hu
      rw [State.afterSlot_pc, State.advance_skipIf_pc]
      simp
    | sknp =>
      cases hu
      rw [State.afterSlot_pc, State.advance_skipIf_not_pc]
      simp
    | drw | ldB | ldMemVx | ldVxMem => exact exec_memory_access_pc hu ht (by simp)
    | _ => exact exec_pc_of_not_mem_writes hu (by simp [writes])

end Sys2Proof.Machine
end

section
/-! One cycle (40_cycle.md R80 to R88): what it does in each of the conditions that it tests. -/

namespace Sys2Proof.Machine

theorem cycle_of_halted {s : State} (h : s.halt ≠ none) : cycle s = .next s :=
  if_pos (Option.isSome_iff_ne_none.mpr h)

theorem cycle_of_waiting {s : State} (h : s.wait ≠ none) : cycle s = .next s := by
  rw [cycle, if_pos (Option.isSome_iff_ne_none.mpr h), ite_self]

/-- A running core's cycle depends on the state after the bound check only. -/
theorem cycle_of_running {s : State} (hh : s.halt = none) (hw : s.wait = none) :
    cycle s = if s.checkPc.halt.isSome then .next s.checkPc else fetchAndExec s.checkPc := by
  simp [cycle, hh, hw]

theorem State.checkPc_of_inBounds {s : State} (h : s.pc.toNat ≤ 0xFFE) : s.checkPc = s :=
  if_pos (decide_eq_true h)

theorem State.checkPc_of_reset {s : State} (h : 0xFFE < s.pc.toNat) (hp : s.cfg.pcPolicy = .reset) :
    s.checkPc = { s with pc := 0x200, diags := s.diags ++ [.pcReset s.pc] } := by
  rcases s.checkPc_cases with ⟨hin, -⟩ | ⟨-, -, e⟩ | ⟨-, hp', -⟩
  · omega
  · exact e
  · simp [hp] at hp'

theorem State.checkPc_of_fatal {s : State} (h : 0xFFE < s.pc.toNat) (hp : s.cfg.pcPolicy = .fatal) :
    s.checkPc = { s with halt := some ⟨.pcOutOfRange, s.pc, none⟩ } := by
  rcases s.checkPc_cases with ⟨hin, -⟩ | ⟨-, hp', -⟩ | ⟨-, -, e⟩
  · omega
  · simp [hp] at hp'
  · exact e

/-- Settles O6: `step_of_executes`, whose `slotOf` is the statement's step. -/
theorem stepRunsTheDecodedInstruction : Obligations.StepRunsTheDecodedInstruction :=
  fun _ _ h => step_of_executes h

/-- Settles O7: under RESET the bound check gives a state that it lets pass, so both cycles run from there; under FATAL
it halts, and the cycle ends. -/
theorem pcOverflowFollowsThePolicy : Obligations.PcOverflowFollowsThePolicy := by
  intro s left hh hw hp hpc
  refine ⟨fun hpol => ?_, fun hpol => ?_⟩
  · have hcheck := State.checkPc_of_reset hpc hpol
    have hpass : s.checkPc.checkPc = s.checkPc :=
      State.checkPc_of_inBounds (by rw [hcheck]; show romBase.toNat ≤ 0xFFE; decide)
    have hh' : s.checkPc.halt = none := by rw [hcheck]; exact hh
    rw [← hcheck, step_of_slot hh hp, step_of_slot hh' (by simpa using hp), slot, slot, cycle_of_running hh hw,
      cycle_of_running hh' (by simpa using hw), hpass]
  · rw [step_of_slot hh hp, slot, cycle_of_running hh hw, State.checkPc_of_fatal hpc hpol]
    rfl

/-- Settles O8: the cycle tests `HALT` and `WAIT` before anything else. -/
theorem haltedAndWaitingSlotsChangeNothing : Obligations.HaltedAndWaitingSlotsChangeNothing := by
  refine fun s => ⟨fun hh => ?_, fun hh hw => ⟨cycle_of_waiting hw, fun left hp => ?_⟩⟩
  · exact ⟨cycle_of_halted hh, step_of_halted (Option.isSome_iff_ne_none.mpr hh)⟩
  · rw [step_of_slot hh hp, slot, cycle_of_waiting hw, thenDo_of_next, State.afterSlot_of_running hh]
    rfl

/-- Settles O38: the no-op writes the diagnostic port, and that by its one event. -/
theorem unknownOpcodeIsOnlyLogged : Obligations.UnknownOpcodeIsOnlyLogged :=
  fun s op => ⟨_, rfl, rfl, exec_keepsAllBut_writes (i := .noHandler op) (s := s) rfl⟩

end Sys2Proof.Machine
end

section
/-! The input phase and the end of a frame (40_cycle.md R91 to R96). -/

namespace Sys2Proof.Machine

theorem State.applyEvent_down_keys (s : State) (k : Key) : (s.applyEvent (.down k)).keys = s.keys.set k true := rfl

theorem State.applyEvent_up_keys (s : State) (k : Key) : (s.applyEvent (.up k)).keys = s.keys.set k false := by
  simp [State.applyEvent]

theorem State.applyEvent_up_wait (s : State) (k : Key) : (s.applyEvent (.up k)).wait = none := by
  simp [State.applyEvent]

/-- A release writes the waiting register, if there is one, and no other (45_keys_timers.md R182). -/
theorem State.release_reg (s : State) (k : Key) (r : Reg) :
    (s.release k).reg r = if s.wait = some r then BitVec.ofNat 8 k.val else s.reg r := by
  cases hw : s.wait with
  | none => simp [State.release_of_running hw]
  | some q =>
    rw [State.release_of_waiting hw]
    simp only [Option.some.injEq]
    exact s.setReg_reg q r (BitVec.ofNat 8 k.val)

theorem State.applyEvent_up_reg (s : State) (k : Key) (r : Reg) :
    (s.applyEvent (.up k)).reg r = if s.wait = some r then BitVec.ofNat 8 k.val else s.reg r :=
  State.release_reg { s with keys := s.keys.set k false } k r

theorem State.applyEvent_down_keepsAllBut (s : State) (k : Key) :
    s.keepsAllBut (s.applyEvent (.down k)) [.keys] := by
  simp [State.keepsAllBut_iff, State.applyEvent, State.reg, State.readByte]

theorem State.applyEvent_up_keepsAllBut (s : State) (k : Key) :
    s.keepsAllBut (s.applyEvent (.up k)) [.keys, .gate, .regs] := by
  simp [State.keepsAllBut_iff]

/-- Settles O51: each event writes its own key; a key-up also ends the wait, by the register's write. -/
theorem keyEventsUpdateKeysAndRelease : Obligations.KeyEventsUpdateKeysAndRelease := by
  intro s k
  refine ⟨⟨?_, fun j hj => ?_, s.applyEvent_down_keepsAllBut k⟩,
    ?_, fun j hj => ?_, s.applyEvent_up_wait k, fun r hr => ?_, fun r hr => ?_, s.applyEvent_up_keepsAllBut k⟩
  · simp [State.applyEvent_down_keys]
  · simp [State.applyEvent_down_keys, Fin.val_ne_of_ne hj.symm]
  · simp [State.applyEvent_up_keys]
  · simp [State.applyEvent_up_keys, Fin.val_ne_of_ne hj.symm]
  · have hk : k.val % 2 ^ 8 = k.val := by omega
    rw [State.applyEvent_up_reg, if_pos hr, BitVec.toNat_ofNat, hk]
  · rw [State.applyEvent_up_reg, if_neg hr]

/-- Settles O53: the first step of a frame is the input phase, on the port's list or a free one. -/
theorem frameBeginsWithItsEvents : Obligations.FrameBeginsWithItsEvents := by
  refine fun s hh hp => ⟨step_of_input hh hp, fun events rest hk => ?_, fun hk => ?_⟩
  · simp [State.frameEvents, State.eventsAt, hk]
  · exact State.eventsAt_of_length_le (j := 0) (by simp [hk])

/-- Settles O54: the last step of a frame is the timer and output phases. -/
theorem frameEndTicksTimersAndPresentsOutputs : Obligations.FrameEndTicksTimersAndPresentsOutputs :=
  fun s hh hp => ⟨s.endFrame, step_of_slots_used hh hp, tick_toNat s.dt, tick_toNat s.st, rfl, rfl,
    s.endFrame_keepsAllBut⟩

end Sys2Proof.Machine
end

section
/-! Control flow: the jumps, the register skips, the call and the return (41_control_flow.md R100 to R107). -/

namespace Sys2Proof.Machine

/-- The word of a well-formed instruction is one of its row, and decodes to it (30_encoding.md R66). -/
theorem encodedBy_row {i : Instr} (h : i.wf = true) : EncodedBy i i.row.mask i.row.pattern :=
  ⟨eq_of_beq (row_takes_encode i), decode_encode h⟩

/-! ## The call and the return -/

theorem exec_call_pushes {s : State} (h : s.sp.val < 16) (nnn : BitVec 12) :
    exec (.call nnn) s = .next
      { s with stack := s.stack.set s.sp.val s.pc, sp := ⟨s.sp.val + 1, by omega⟩, pc := zext16 nnn } := by
  rcases execCall_cases nnn s with ⟨hfull, -⟩ | ⟨_, e⟩
  · simp [hfull] at h
  · exact e

theorem exec_ret_pops {s : State} {n : Nat} (hn : n < 16) (h : s.sp.val = n + 1) (mid : BitVec 8) :
    exec (.ret mid) s = .next { s with sp := ⟨n, by omega⟩, pc := s.stack[n] } := by
  rcases execRet_cases mid s with ⟨hempty, -⟩ | ⟨m, _, hm, e⟩
  · simp [hempty] at h
  · obtain rfl : m = n := by simpa [hm] using h
    exact e

/-- Settles O16: the call stores the address at the old `SP`, and that is the entry the return pops. -/
theorem returnComesBackAfterTheCall : Obligations.ReturnComesBackAfterTheCall := by
  intro s t u nnn mid hroom hcall husp hustack
  rw [exec_call_pushes hroom] at hcall
  cases hcall
  have hsp : u.sp.val = s.sp.val + 1 := congrArg Fin.val husp
  have htop : u.stack[s.sp.val] = s.pc := by simp [hustack]
  exact ⟨_, exec_ret_pops hroom hsp mid, htop, rfl⟩

/-- Settles O14: `exec_call_pushes` with room on the stack, `exec_call_overflows` on the full one. -/
theorem callPushesOrOverflows : Obligations.CallPushesOrOverflows := by
  refine fun s nnn => ⟨fun hroom => ?_, fun hfull => exec_call_overflows hfull nnn, encodedBy_row rfl⟩
  refine ⟨_, exec_call_pushes hroom nnn, rfl, fun k => ?_, zext16_target_toNat nnn, ?_⟩
  · simp [Vector.getElem_set, eq_comm]
  · simp [State.keepsAllBut_iff, State.reg, State.readByte]

/-- Settles O15: `exec_ret_pops` with an entry on the stack, `exec_ret_underflows` on the empty one. -/
theorem returnPopsOrUnderflows : Obligations.ReturnPopsOrUnderflows := by
  refine fun s mid => ⟨fun hentry => ?_, fun hempty => exec_ret_underflows hempty mid, encodedBy_row rfl⟩
  obtain ⟨n, hn⟩ := Nat.exists_eq_add_of_lt hentry
  have hsp : s.sp.val = n + 1 := by omega
  have hlt : n < 16 := by omega
  refine ⟨_, exec_ret_pops hlt hsp mid, hsp.symm, rfl, ⟨⟨n, hlt⟩, rfl, rfl⟩, ?_⟩
  simp [State.keepsAllBut_iff, State.reg, State.readByte]

/-! ## The jumps and the register skips -/

/-- Settles O11: a jump may write `PC` only, and its target fits 16 bits. -/
theorem jumpsLoadPcAndNothingElse : Obligations.JumpsLoadPcAndNothingElse := fun s nnn =>
  ⟨⟨_, rfl, zext16_target_toNat nnn, exec_keepsAllBut_writes (i := .jp nnn) (s := s) rfl⟩,
    ⟨_, rfl, zext16_target_add_toNat nnn (s.reg 0), exec_keepsAllBut_writes (i := .jpV0 nnn) (s := s) rfl⟩,
    encodedBy_row rfl, encodedBy_row rfl⟩

/-- An instruction that is `skipIf` of a condition skips exactly when it holds (41_control_flow.md R108). -/
theorem skipsWhen_of_exec {i : Instr} {s : State} {c : Prop} [Decidable c]
    (h : exec i s = .next (s.skipIf c)) : SkipsWhen i s c :=
  ⟨s.skipIf c, h, fun hc => by simp [hc], fun hc => by simp [hc], by simp [State.keepsAllBut_iff]⟩

/-- Settles O12: each of the four is `skipIf` of its comparison. -/
theorem registerSkipsAddTwoExactlyWhenTrue : Obligations.RegisterSkipsAddTwoExactlyWhenTrue :=
  fun _ _ _ _ _ =>
    ⟨skipsWhen_of_exec rfl, encodedBy_row rfl, skipsWhen_of_exec rfl, encodedBy_row rfl,
      skipsWhen_of_exec rfl, encodedBy_row rfl, skipsWhen_of_exec rfl, encodedBy_row rfl⟩

end Sys2Proof.Machine
end

section
/-! The registers (42_register_alu.md R120 to R133): the instructions that write one register, and those that write a
register and the flag. -/

namespace Sys2Proof.Machine

/-! ## The write order -/

/-- `s` under another `VF_WRITE_ORDER`. -/
def State.withOrder (s : State) (order : VfWriteOrder) : State :=
  { s with cfg := { s.cfg with vfOrder := order } }

theorem State.setReg_comm (s : State) {x y : Reg} (h : x ≠ y) (b c : Byte) :
    (s.setReg x b).setReg y c = (s.setReg y c).setReg x b :=
  congrArg (fun v => { s with v := v }) (s.v.set_comm b c (Fin.val_ne_of_ne h))

/-- Only a destination that is `VF` itself shows which write came last (R133). -/
theorem State.setRegAndFlag_of_ne (s : State) (row : RowOrder) {x : Reg} (h : x ≠ vf) (b : Byte) (f : Bool) :
    s.setRegAndFlag row x b f = (s.setReg x b).setReg vf (flagByte f) := by
  unfold State.setRegAndFlag
  split
  · exact s.setReg_comm h.symm _ _
  all_goals rfl

theorem State.setRegAndFlag_withOrder (s : State) (order : VfWriteOrder) (row : RowOrder) {x : Reg} (h : x ≠ vf)
    (b : Byte) (f : Bool) :
    (s.withOrder order).setRegAndFlag row x b f = (s.setRegAndFlag row x b f).withOrder order := by
  rw [State.setRegAndFlag_of_ne _ row h, State.setRegAndFlag_of_ne _ row h]
  rfl

/-- Settles O24: each of the five is one `setRegAndFlag`, whose write order shows only in `VF` as destination. -/
theorem writeOrderMattersOnlyForVF : Obligations.WriteOrderMattersOnlyForVF := by
  intro s t x y order hx i hi h
  simp only [List.mem_cons, List.not_mem_nil, or_false] at hi
  rcases hi with rfl | rfl | rfl | rfl | rfl <;> cases h <;>
    exact congrArg Host.Outcome.next (s.setRegAndFlag_withOrder order _ hx _ _)

/-! ## One register -/

theorem writesOneReg_of_exec {i : Instr} {s : State} {x : Reg} {b : Byte}
    (h : exec i s = .next (s.setReg x b)) : WritesOneReg i s x b :=
  ⟨s.setReg x b, h, s.setReg_reg_self x b, fun _ hr => s.setReg_reg_of_ne b hr, by simp [State.keepsAllBut_iff]⟩

/-- Settles O18: each of the three is one `setReg` of its operand. -/
theorem loadsWriteOnlyTheirRegister : Obligations.LoadsWriteOnlyTheirRegister := fun _ _ _ _ =>
  ⟨writesOneReg_of_exec rfl, encodedBy_row rfl, writesOneReg_of_exec rfl, encodedBy_row rfl,
    writesOneReg_of_exec rfl, encodedBy_row rfl⟩

theorem ofNat_add_mod (a b : Byte) : BitVec.ofNat 8 ((a.toNat + b.toNat) % 256) = a + b :=
  BitVec.eq_of_toNat_eq (by simp)

/-- Settles O19: one `setReg` of the byte sum, whose carry is lost. -/
theorem addImmediateWrapsWithoutFlag : Obligations.AddImmediateWrapsWithoutFlag := by
  refine fun s x nn => ⟨?_, encodedBy_row rfl⟩
  rw [ofNat_add_mod]
  exact writesOneReg_of_exec rfl

/-- Settles O20: each of the three is one `setReg` of its bitwise operation. -/
theorem logicWritesBitwiseWithoutFlag : Obligations.LogicWritesBitwiseWithoutFlag := fun _ _ _ =>
  ⟨⟨_, writesOneReg_of_exec rfl, fun _ => BitVec.getLsbD_or⟩,
    ⟨_, writesOneReg_of_exec rfl, fun _ => BitVec.getLsbD_and⟩,
    ⟨_, writesOneReg_of_exec rfl, fun _ => BitVec.getLsbD_xor⟩,
    encodedBy_row rfl, encodedBy_row rfl, encodedBy_row rfl⟩

/-! ## The register and the flag -/

theorem flagByte_of_iff {f : Bool} {flag : Prop} (h : f = true ↔ flag) :
    (flag → flagByte f = 1) ∧ (¬flag → flagByte f = 0) := by
  cases f <;> simp_all [flagByte]

/-- `VF` holds the flag, unless it is the destination and the result comes last. -/
theorem State.setRegAndFlag_vf (s : State) (row : RowOrder) (x : Reg) (b : Byte) (f : Bool) :
    (s.setRegAndFlag row x b f).reg vf =
      if x = vf ∧ row = .flagThenReg ∧ s.cfg.vfOrder ≠ .flagLast then b else flagByte f := by
  rw [State.setRegAndFlag_reg]
  cases s.cfg.vfOrder <;> cases row <;> simp

theorem State.setRegAndFlag_dest (s : State) (row : RowOrder) {x : Reg} (h : x ≠ vf) (b : Byte) (f : Bool) :
    (s.setRegAndFlag row x b f).reg x = b := by
  simp [State.setRegAndFlag_reg, h]

theorem State.setRegAndFlag_other (s : State) (row : RowOrder) {x r : Reg} (hx : r ≠ x) (hf : r ≠ vf) (b : Byte)
    (f : Bool) : (s.setRegAndFlag row x b f).reg r = s.reg r := by
  simp [State.setRegAndFlag_reg, hx.symm, hf]

section
variable {i : Instr} {s : State} {x : Reg} {b : Byte} {f : Bool} {result : Nat} {flag : Prop}

/-- A row that writes `VF` last keeps the flag under both orders (R126). -/
theorem writesRegAndFlag_of_regThenFlag (h : exec i s = .next (s.setRegAndFlag .regThenFlag x b f))
    (hb : b.toNat = result) (hf : f = true ↔ flag) : WritesRegAndFlag i s x result flag True := by
  have hvf : (s.setRegAndFlag .regThenFlag x b f).reg vf = flagByte f := by simp [State.setRegAndFlag_vf]
  refine ⟨_, h, fun hx => ?_, fun _ => ?_, fun _ hw => absurd trivial hw,
    fun r hr hrf => s.setRegAndFlag_other _ hr hrf b f, by simp [State.keepsAllBut_iff]⟩
  · rw [s.setRegAndFlag_dest _ hx, hb]
  · rw [hvf]
    exact flagByte_of_iff hf

/-- A row that writes `V[X]` last keeps the result in `VF`, unless the configuration writes the flag last (R133). -/
theorem writesRegAndFlag_of_flagThenReg (h : exec i s = .next (s.setRegAndFlag .flagThenReg x b f))
    (hb : b.toNat = result) (hf : f = true ↔ flag) :
    WritesRegAndFlag i s x result flag (s.cfg.vfOrder = .flagLast) := by
  refine ⟨_, h, fun hx => ?_, fun hw => ?_, fun hx hw => ?_,
    fun r hr hrf => s.setRegAndFlag_other _ hr hrf b f, by simp [State.keepsAllBut_iff]⟩
  · rw [s.setRegAndFlag_dest _ hx, hb]
  · rw [State.setRegAndFlag_vf, if_neg (by tauto)]
    exact flagByte_of_iff hf
  · rw [State.setRegAndFlag_vf, if_pos ⟨hx, rfl, hw⟩, hb]

end

/-- Settles O21: the row of 8XY4 writes `VF` last. -/
theorem addRegistersSetsTheCarry : Obligations.AddRegistersSetsTheCarry := fun s x y =>
  ⟨writesRegAndFlag_of_regThenFlag rfl (BitVec.toNat_add (s.reg x) (s.reg y)) decide_eq_true_iff, encodedBy_row rfl⟩

theorem sub_toNat (a b : Byte) : (a - b).toNat = (a.toNat + 256 - b.toNat) % 256 := by
  rw [BitVec.toNat_sub]
  have := b.isLt
  omega

/-- Settles O22: the difference and the comparison of the two operands, `VF` written first. -/
theorem subtractionsSetTheStrictFlag : Obligations.SubtractionsSetTheStrictFlag := fun s x y =>
  ⟨writesRegAndFlag_of_flagThenReg rfl (sub_toNat (s.reg x) (s.reg y)) decide_eq_true_iff,
    writesRegAndFlag_of_flagThenReg rfl (sub_toNat (s.reg y) (s.reg x)) decide_eq_true_iff,
    encodedBy_row rfl, encodedBy_row rfl⟩

theorem shiftRight_one_toNat (a : Byte) : (a >>> 1).toNat = a.toNat / 2 := by
  rw [BitVec.toNat_ushiftRight, Nat.shiftRight_eq_div_pow]

theorem shiftLeft_one_toNat (a : Byte) : (a <<< 1).toNat = a.toNat * 2 % 256 := by
  rw [BitVec.toNat_shiftLeft, Nat.shiftLeft_eq]

theorem lowBitOf_iff (a : Byte) : lowBitOf a = true ↔ a.toNat % 2 = 1 := by
  rw [lowBitOf, BitVec.getLsbD, Nat.testBit_zero, decide_eq_true_iff]

theorem highBitOf_iff (a : Byte) : highBitOf a = true ↔ 128 ≤ a.toNat := by
  have hmsb : highBitOf a = a.msb := rfl
  rw [hmsb, BitVec.msb_eq_decide, decide_eq_true_iff]

/-- Settles O23: half or double of `Vx` and the bit that the shift loses, `VF` written first. -/
theorem shiftsMoveByOneAndSetTheLostBit : Obligations.ShiftsMoveByOneAndSetTheLostBit := fun s x _ =>
  ⟨writesRegAndFlag_of_flagThenReg rfl (shiftRight_one_toNat (s.reg x)) (lowBitOf_iff (s.reg x)),
    writesRegAndFlag_of_flagThenReg rfl (shiftLeft_one_toNat (s.reg x)) (highBitOf_iff (s.reg x)),
    encodedBy_row rfl, encodedBy_row rfl⟩

/-! ## The random byte -/

theorem State.nextDraw_of_delivered {s : State} {b : Byte} {rest : List Byte} (h : s.rndIn = b :: rest) :
    s.nextDraw = b := by
  simp [State.nextDraw, h]

theorem masked_and_not (b m : Byte) : b &&& m &&& ~~~m = 0 := by
  rw [BitVec.and_assoc, BitVec.and_not_self]
  exact BitVec.and_zero

/-- Settles O25: one draw taken from the port, then one `setReg`. -/
theorem randomByteIsTheDrawUnderTheMask : Obligations.RandomByteIsTheDrawUnderTheMask := by
  intro s x nn
  have hx : (s.afterDraw.setReg x (s.nextDraw &&& nn)).reg x = s.nextDraw &&& nn := State.setReg_reg_self _ x _
  refine ⟨⟨_, rfl, hx, ?_, fun r hr => ?_, rfl, rfl, exec_keepsAllBut_writes (i := .rnd x nn) (s := s) rfl⟩,
    fun b rest => State.nextDraw_of_delivered, encodedBy_row rfl⟩
  · rw [hx]
    exact masked_and_not s.nextDraw nn
  · rw [State.setReg_reg_of_ne _ _ hr, State.afterDraw_reg]

end Sys2Proof.Machine
end

section
/-! The index register and the memory transfers (43_index_memory.md R140 to R146): what a transfer does when its range
fits memory, and its fatal error when the range does not fit. -/

namespace Sys2Proof.Machine

/-! ## The index register -/

theorem add_zext16_toNat (i : Word) (b : Byte) : (i + zext16 b).toNat = (i.toNat + b.toNat) % 65536 := by
  have hb : (zext16 b).toNat = b.toNat := BitVec.toNat_setWidth_of_le (by decide)
  rw [BitVec.toNat_add, hb]

/-- The last glyph address is below 0x1B0 + 5 * 0xFF + 1, so it does not wrap (43_index_memory.md R142). -/
theorem glyphAddr_toNat (cfg : Config) (b : Byte) : (glyphAddr cfg b).toNat = cfg.fontBase.val + 5 * b.toNat := by
  have hbase := cfg.fontBase.isLt
  have hb := b.isLt
  exact (BitVec.toNat_ofNat _ _).trans (Nat.mod_eq_of_lt (by omega))

/-- Settles O27: each of the three may write `I` only. -/
theorem indexLoadsWriteOnlyI : Obligations.IndexLoadsWriteOnlyI := fun s x nnn =>
  ⟨⟨_, rfl, zext16_target_toNat nnn, exec_keepsAllBut_writes (i := .ldI nnn) (s := s) rfl⟩,
    ⟨_, rfl, add_zext16_toNat s.i (s.reg x), exec_keepsAllBut_writes (i := .addIVx x) (s := s) rfl⟩,
    ⟨_, rfl, glyphAddr_toNat s.cfg (s.reg x), exec_keepsAllBut_writes (i := .ldF x) (s := s) rfl⟩,
    encodedBy_row rfl, encodedBy_row rfl, encodedBy_row rfl⟩

/-! ## The bound check -/

/-- A range past 0xFFF is MemoryBound, whatever the transfer behind the check (20_memory.md R47). -/
theorem raisesFatal_of_checkRange {i : Instr} {s : State} {last : Nat} {go : Result}
    (hi : exec i s = checkRange s last i go) (h : 0xFFF < s.effAddr last) : RaisesFatal .memoryBound i s := by
  rcases checkRange_cases s last i go with ⟨hfit, -⟩ | ⟨-, e⟩
  · exact absurd hfit (Nat.not_le_of_lt h)
  · exact hi.trans e

/-! ## The bytes after a store -/

theorem State.byteAfterStore_register (s : State) {x r : Reg} (h : r.val ≤ x.val) :
    s.byteAfterStore x (s.effAddr r.val) = s.reg r := by
  simp [State.byteAfterStore, State.effAddr, h]

theorem State.byteAfterStore_outside (s : State) {x : Reg} {a : Nat}
    (h : a < s.effAddr 0 ∨ s.effAddr x.val < a) : s.byteAfterStore x a = s.readByte a :=
  if_neg (by omega)

theorem State.byteAfterBcd_hundreds (s : State) (x : Reg) :
    (s.byteAfterBcd x (s.effAddr 0)).toNat = (s.reg x).toNat / 100 := by
  have hx := (s.reg x).isLt
  rw [State.byteAfterBcd, if_pos rfl, BitVec.toNat_ofNat, Nat.mod_eq_of_lt (by omega)]

theorem State.byteAfterBcd_tens (s : State) (x : Reg) :
    (s.byteAfterBcd x (s.effAddr 1)).toNat = (s.reg x).toNat / 10 % 10 := by
  rw [State.byteAfterBcd, if_neg (by simp [State.effAddr]), if_pos rfl, BitVec.toNat_ofNat,
    Nat.mod_eq_of_lt (by omega)]

theorem State.byteAfterBcd_ones (s : State) (x : Reg) :
    (s.byteAfterBcd x (s.effAddr 2)).toNat = (s.reg x).toNat % 10 := by
  rw [State.byteAfterBcd, if_neg (by simp [State.effAddr]), if_neg (by simp [State.effAddr]), if_pos rfl,
    BitVec.toNat_ofNat, Nat.mod_eq_of_lt (by omega)]

theorem State.byteAfterBcd_outside (s : State) {x : Reg} {a : Nat}
    (h : a < s.effAddr 0 ∨ s.effAddr 2 < a) : s.byteAfterBcd x a = s.readByte a := by
  have h1 : s.effAddr 1 = s.effAddr 0 + 1 := rfl
  have h2 : s.effAddr 2 = s.effAddr 0 + 2 := rfl
  rw [State.byteAfterBcd, if_neg (by omega), if_neg (by omega), if_neg (by omega)]

/-! ## The transfers in range -/

theorem exec_ldB_of_fits {s : State} {x : Reg} (h : s.effAddr 2 ≤ 0xFFF) : exec (.ldB x) s = .next
    { s with mem := Memory.writeAll s.cfg s.mem (s.effAddr 0) (bcdDigits (s.reg x)) } := by
  rcases execLdB_cases x s with ⟨hout, -⟩ | ⟨-, e⟩
  · exact absurd h (Nat.not_le_of_lt hout)
  · exact e

theorem exec_ldMemVx_of_fits {s : State} {x : Reg} (h : s.effAddr x.val ≤ 0xFFF) : exec (.ldMemVx x) s = .next
    { s with mem := Memory.writeAll s.cfg s.mem (s.effAddr 0) (s.regsTo x) } := by
  rcases execLdMemVx_cases x s with ⟨hout, -⟩ | ⟨-, e⟩
  · exact absurd h (Nat.not_le_of_lt hout)
  · exact e

/-- The stored bytes do not depend on `HALT`, so `exec_ldB_readByte`, which is about a running core, gives them. -/
theorem exec_ldB_stores {s : State} (hs : Memory.wf s.cfg s.mem) (h : s.effAddr 2 ≤ 0xFFF) (x : Reg) :
    ∃ t, exec (.ldB x) s = .next t ∧ (∀ a, t.readByte a = s.byteAfterBcd x a) ∧ s.keepsAllBut t [.memory] := by
  have hbytes := exec_ldB_readByte (s := { s with halt := none }) hs (exec_ldB_of_fits (x := x) h) rfl
  exact ⟨_, exec_ldB_of_fits h, hbytes, by simp [State.keepsAllBut_iff, State.reg]⟩

/-- The stored bytes do not depend on `HALT`, so `exec_ldMemVx_readByte`, which is about a running core, gives them. -/
theorem exec_ldMemVx_stores {s : State} {x : Reg} (hs : Memory.wf s.cfg s.mem) (h : s.effAddr x.val ≤ 0xFFF) :
    ∃ t, exec (.ldMemVx x) s = .next t ∧ (∀ a, t.readByte a = s.byteAfterStore x a) ∧
      s.keepsAllBut t [.memory] := by
  have hbytes := exec_ldMemVx_readByte (s := { s with halt := none }) hs (exec_ldMemVx_of_fits (x := x) h) rfl
  exact ⟨_, exec_ldMemVx_of_fits h, hbytes, by simp [State.keepsAllBut_iff, State.reg]⟩

/-- FX65 writes register `r` with the byte at `I + r`, up to `Vx`. -/
theorem State.setRegs_readBytes_reg (s : State) (x r : Reg) :
    (s.setRegs 0 ((List.range (x.val + 1)).map fun k => s.readByte (s.effAddr 0 + k))).reg r =
      if r.val ≤ x.val then s.readByte (s.effAddr r.val) else s.reg r := by
  rw [State.setRegs_reg, if_pos (Nat.zero_le _), Nat.sub_zero]
  by_cases h : r.val ≤ x.val
  · rw [if_pos h]
    simp [List.getD_eq_getElem?_getD, Nat.lt_succ_of_le h, State.effAddr]
  · rw [if_neg h]
    exact List.getD_eq_default _ _ (by simp; omega)

theorem exec_ldVxMem_loads {s : State} {x : Reg} (h : s.effAddr x.val ≤ 0xFFF) :
    ∃ t, exec (.ldVxMem x) s = .next t ∧
      (∀ r : Reg, t.reg r = if r.val ≤ x.val then s.readByte (s.effAddr r.val) else s.reg r) ∧
      s.keepsAllBut t [.regs] := by
  rcases execLdVxMem_cases x s with ⟨hout, -⟩ | ⟨-, e⟩
  · exact absurd h (Nat.not_le_of_lt hout)
  · exact ⟨_, e, s.setRegs_readBytes_reg x, by simp [State.keepsAllBut_iff]⟩

/-! ## The statements -/

/-- Settles O31: `u` reads at `I + r` what the store left there, and that is `V[r]` of `s`. -/
theorem loadGivesBackWhatStoreWrote : Obligations.LoadGivesBackWhatStoreWrote := by
  intro s t u x hs hfit hstore hmem hcfg hi
  obtain ⟨t', hstore', hbytes, -⟩ := exec_ldMemVx_stores hs hfit
  obtain rfl : t' = t := Host.Outcome.next.inj (hstore'.symm.trans hstore)
  have haddr (k : Nat) : u.effAddr k = s.effAddr k := by rw [State.effAddr, hi, State.effAddr]
  have hread (a : Nat) : u.readByte a = t'.readByte a := by rw [State.readByte, hmem, hcfg, State.readByte]
  obtain ⟨w, hload, hreg, -⟩ := exec_ldVxMem_loads (s := u) (x := x) (by rwa [haddr])
  refine ⟨w, hload, fun r hr => ?_⟩
  calc w.reg r = u.readByte (u.effAddr r.val) := by rw [hreg, if_pos hr]
    _ = s.byteAfterStore x (s.effAddr r.val) := by rw [haddr, hread, hbytes]
    _ = s.reg r := s.byteAfterStore_register hr

/-- Settles O28: `exec_ldB_stores` in range, the bound check past it. -/
theorem bcdStoresThreeDigitsOrFaults : Obligations.BcdStoresThreeDigitsOrFaults := by
  refine fun s x hs => ⟨fun hfit => ?_, raisesFatal_of_checkRange rfl, encodedBy_row rfl⟩
  obtain ⟨t, ht, hbytes, hkeep⟩ := exec_ldB_stores hs hfit x
  exact ⟨t, ht, (congrArg _ (hbytes _)).trans (s.byteAfterBcd_hundreds x),
    (congrArg _ (hbytes _)).trans (s.byteAfterBcd_tens x), (congrArg _ (hbytes _)).trans (s.byteAfterBcd_ones x),
    fun a ha => (hbytes a).trans (s.byteAfterBcd_outside ha), hkeep⟩

/-- Settles O29: `exec_ldMemVx_stores` in range, the bound check past it. -/
theorem storeRegistersOrFault : Obligations.StoreRegistersOrFault := by
  refine fun s x hs => ⟨fun hfit => ?_, raisesFatal_of_checkRange rfl, encodedBy_row rfl⟩
  obtain ⟨t, ht, hbytes, hkeep⟩ := exec_ldMemVx_stores hs hfit
  exact ⟨t, ht, fun r hr => (hbytes _).trans (s.byteAfterStore_register hr),
    fun a ha => (hbytes a).trans (s.byteAfterStore_outside ha), hkeep⟩

/-- Settles O30: `exec_ldVxMem_loads` in range, the bound check past it. -/
theorem loadRegistersOrFault : Obligations.LoadRegistersOrFault := fun _ _ =>
  ⟨exec_ldVxMem_loads, raisesFatal_of_checkRange rfl, encodedBy_row rfl⟩

end Sys2Proof.Machine
end

section
/-! The display (44_display.md R160 to R164): the draw in terms of the pixels that the sprite covers, a second draw over
the first, and which instructions write `DISP`. -/

namespace Sys2Proof.Machine

theorem display_mem_writes {i : Instr} : Part.display ∈ writes i →
    (∃ mid, i = .cls mid) ∨ (∃ x y n, i = .drw x y n) := by
  cases i <;> simp [writes]

/-- Settles O39: `DISP` changes only by an executed instruction, and two instructions write it. -/
theorem onlyClearAndDrawWriteTheDisplay : Obligations.OnlyClearAndDrawWriteTheDisplay := by
  intro s t h hc
  obtain ⟨i, u, l, hn, -, -, hm⟩ := step_change_by_instr (p := .display) h (by simp) hc
  rcases display_mem_writes hm with ⟨mid, rfl⟩ | ⟨x, y, n, rfl⟩
  · exact .inl ⟨mid, hn⟩
  · exact .inr ⟨x, y, n, hn⟩

/-- Settles O33: 00E0 may write the display only, and its pixels are those of the blank one. -/
theorem clearScreenClearsEveryPixel : Obligations.ClearScreenClearsEveryPixel := fun s mid =>
  ⟨⟨_, rfl, Display.blank_pixel, exec_keepsAllBut_writes (i := .cls mid) (s := s) rfl⟩, encodedBy_row rfl⟩

/-! ## The sprite -/

/-- The `n` bytes at `I`, as DXYN reads them. -/
def State.sprite (s : State) (n : Nat) : List Byte := (List.range n).map fun k => s.readByte (s.effAddr 0 + k)

/-- A pixel with the value `b` is under a 1 bit of the sprite: the collision of R161 when `b` is true. -/
def State.spriteMeets (s : State) (x0 y0 : Byte) (n : Nat) (b : Bool) : Prop :=
  ∃ py px, s.spriteCovers x0 y0 n py px ∧ s.disp.pixel py px = b

/-- A covered pixel, by the bytes and the coordinates of R161's loop. -/
theorem State.spriteCovers_iff (s : State) (x0 y0 : Byte) (n : Nat) (py : Fin 32) (px : Fin 64) :
    s.spriteCovers x0 y0 n py px ↔ ∃ (k : Nat) (h : k < (s.sprite n).length), ∃ c < 8,
      spriteBit (s.sprite n)[k] c = true ∧ spriteRow y0 (0 + k) = py ∧ spriteColumn x0 c = px := by
  simp only [State.spriteCovers, State.sprite, State.effAddr, spriteBit, spriteRow, spriteColumn, List.length_map,
    List.length_range, List.getElem_map, List.getElem_range, Nat.add_zero, Nat.zero_add, Fin.ofNat_eq_cast,
    Fin.ext_iff, Fin.val_natCast, exists_prop]
  refine exists_congr fun k => and_congr_right fun _ => exists_congr fun c => and_congr_right fun _ => ?_
  rw [eq_comm (a := py.val), eq_comm (a := px.val)]
  exact and_rotate.symm

theorem State.spriteCovers_congr {s u : State} (hi : u.i = s.i) (hread : ∀ a, u.readByte a = s.readByte a) :
    u.spriteCovers = s.spriteCovers := by
  funext x0 y0 n py px
  simp [State.spriteCovers, State.effAddr, hi, hread]

/-- A byte other than 0 has a 1 bit, so its row of the sprite covers a pixel. -/
theorem State.exists_spriteCovers {s : State} {n r : Nat} (hr : r < n) (hb : s.readByte (s.effAddr r) ≠ 0)
    (x0 y0 : Byte) : ∃ py px, s.spriteCovers x0 y0 n py px := by
  obtain ⟨j, hj, hbit⟩ : ∃ j < 8, (s.readByte (s.effAddr r)).getLsbD j = true := by
    by_contra hnone
    refine hb (BitVec.eq_of_getLsbD_eq fun j hj => ?_)
    simpa using fun hbit => hnone ⟨j, hj, hbit⟩
  have hc : 7 - (7 - j) = j := by omega
  exact ⟨spriteRow y0 r, spriteColumn x0 (7 - j), r, hr, 7 - j, by omega, rfl, rfl, by rwa [hc]⟩

theorem State.not_spriteCovers_of_zero {s : State} {n : Nat} (h : ∀ r < n, s.readByte (s.effAddr r) = 0)
    (x0 y0 : Byte) (py : Fin 32) (px : Fin 64) : ¬s.spriteCovers x0 y0 n py px := by
  rintro ⟨r, hr, c, -, -, -, hbit⟩
  simp [h r hr] at hbit

/-! ## One draw -/

/-- R161's loop over the sprite at `I`: the covered pixels are flipped, and the hit is the collision. -/
theorem drawBytes_sprite (s : State) (x0 y0 : Byte) (n : BitVec 4) (py : Fin 32) (px : Fin 64) :
    let q := drawBytes x0 y0 0 (s.sprite n.toNat) ⟨s.disp, false⟩
    (s.spriteCovers x0 y0 n.toNat py px → q.disp.pixel py px = !s.disp.pixel py px) ∧
    (¬s.spriteCovers x0 y0 n.toNat py px → q.disp.pixel py px = s.disp.pixel py px) ∧
    (q.hit = true ↔ s.spriteMeets x0 y0 n.toNat true) := by
  have hlen : (s.sprite n.toNat).length ≤ 32 := by simp [State.sprite]; omega
  simpa [State.spriteMeets, State.spriteCovers_iff] using
    drawBytes_spec x0 y0 (s.sprite n.toNat) 0 hlen ⟨s.disp, false⟩ py px

section
variable (s : State) (x y : Reg) (n : BitVec 4)

theorem State.draw_sprite_pixel (py : Fin 32) (px : Fin 64) :
    (s.spriteCovers (s.reg x) (s.reg y) n.toNat py px →
      (s.draw x y (s.sprite n.toNat)).disp.pixel py px = !s.disp.pixel py px) ∧
    (¬s.spriteCovers (s.reg x) (s.reg y) n.toNat py px →
      (s.draw x y (s.sprite n.toNat)).disp.pixel py px = s.disp.pixel py px) := by
  obtain ⟨hcovered, hfree, -⟩ := drawBytes_sprite s (s.reg x) (s.reg y) n py px
  exact ⟨hcovered, hfree⟩

theorem State.draw_sprite_vf :
    (s.spriteMeets (s.reg x) (s.reg y) n.toNat true → (s.draw x y (s.sprite n.toNat)).reg vf = 1) ∧
    (¬s.spriteMeets (s.reg x) (s.reg y) n.toNat true → (s.draw x y (s.sprite n.toNat)).reg vf = 0) := by
  obtain ⟨-, -, hhit⟩ := drawBytes_sprite s (s.reg x) (s.reg y) n 0 0
  rw [State.draw_reg, if_pos rfl]
  exact flagByte_of_iff hhit

end

theorem State.draw_reg_of_ne (s : State) (x y : Reg) (bytes : List Byte) {r : Reg} (h : r ≠ vf) :
    (s.draw x y bytes).reg r = s.reg r := by
  rw [State.draw_reg, if_neg h]

theorem exec_drw_of_fits {s : State} {x y : Reg} {n : BitVec 4}
    (h : n = 0 ∨ s.effAddr (n.toNat - 1) ≤ 0xFFF) :
    exec (.drw x y n) s = .next (s.draw x y (s.sprite n.toNat)) := by
  rcases execDrw_cases x y n s with ⟨hn, hout, -⟩ | ⟨-, e⟩
  · exact absurd h (not_or.mpr ⟨hn, Nat.not_le_of_lt hout⟩)
  · exact e

/-- With `N > 0` the bound check stands before the draw (20_memory.md R47). -/
theorem exec_drw_checks {n : BitVec 4} (h : n ≠ 0) (x y : Reg) (s : State) :
    exec (.drw x y n) s = checkRange s (n.toNat - 1) (.drw x y n)
      (thenDo (memRead s (s.effAddr 0) n.toNat) fun bytes => .next (s.draw x y bytes)) :=
  if_neg h

/-- Settles O34: the draw of the sprite in range, the bound check past it. -/
theorem drawFlipsTheSpritesPixels : Obligations.DrawFlipsTheSpritesPixels := by
  refine fun s x y n => ⟨fun hfit => ?_, fun hn => raisesFatal_of_checkRange (exec_drw_checks hn x y s),
    encodedBy_row rfl⟩
  obtain ⟨hhit, hmiss⟩ := s.draw_sprite_vf x y n
  exact ⟨_, exec_drw_of_fits hfit, s.draw_sprite_pixel x y n, hhit, hmiss, fun r => s.draw_reg_of_ne x y _,
    by simp [State.keepsAllBut_iff]⟩

/-! ## The same draw twice -/

section
variable {s u : State} {x y x' y' : Reg} {n : BitVec 4}
  (hdisp : u.disp = (s.draw x y (s.sprite n.toNat)).disp)
  (hcov : u.spriteCovers (u.reg x') (u.reg y') = s.spriteCovers (s.reg x) (s.reg y))
include hdisp hcov

/-- The second draw flips the pixels that the first one flipped. -/
theorem State.draw_sprite_twice_disp : (u.draw x' y' (u.sprite n.toNat)).disp = s.disp := by
  refine Display.ext fun py px => ?_
  obtain ⟨hcovered, hfree⟩ := s.draw_sprite_pixel x y n py px
  obtain ⟨hcovered', hfree'⟩ := u.draw_sprite_pixel x' y' n py px
  rw [hcov, hdisp] at hcovered' hfree'
  by_cases hc : s.spriteCovers (s.reg x) (s.reg y) n.toNat py px
  · rw [hcovered' hc, hcovered hc, Bool.not_not]
  · rw [hfree' hc, hfree hc]

/-- The second draw collides where the first one set a pixel. -/
theorem State.spriteMeets_after_draw_iff : u.spriteMeets (u.reg x') (u.reg y') n.toNat true ↔
    s.spriteMeets (s.reg x) (s.reg y) n.toNat false := by
  rw [State.spriteMeets, hcov, hdisp]
  refine exists_congr fun py => exists_congr fun px => and_congr_right fun hc => ?_
  rw [(s.draw_sprite_pixel x y n py px).1 hc, Bool.not_eq_true']

end

/-- Settles O35: both draws cover the same pixels, so the second undoes the first and meets the pixels it set. -/
theorem drawingTwiceGivesBackTheDisplay : Obligations.DrawingTwiceGivesBackTheDisplay := by
  intro s t u x y x' y' n hfit ht hdisp hi hread hx hy
  obtain rfl : s.draw x y (s.sprite n.toNat) = t :=
    Host.Outcome.next.inj ((exec_drw_of_fits hfit).symm.trans ht)
  have hcov : u.spriteCovers (u.reg x') (u.reg y') = s.spriteCovers (s.reg x) (s.reg y) := by
    rw [State.spriteCovers_congr hi hread, hx, hy]
  have hfit' : n = 0 ∨ u.effAddr (n.toNat - 1) ≤ 0xFFF := by rwa [State.effAddr, hi]
  obtain ⟨-, hmiss⟩ := s.draw_sprite_vf x y n
  obtain ⟨hhit', hmiss'⟩ := u.draw_sprite_vf x' y' n
  rw [State.spriteMeets_after_draw_iff hdisp hcov] at hhit' hmiss'
  refine ⟨_, exec_drw_of_fits hfit', State.draw_sprite_twice_disp hdisp hcov, hhit', hmiss', ?_, fun hzero => ?_⟩
  · rintro ⟨r, hr, hb⟩ hblank
    obtain ⟨py, px, hc⟩ := State.exists_spriteCovers hr hb (s.reg x) (s.reg y)
    exact hhit' ⟨py, px, hc, by rw [hblank, Display.blank_pixel]⟩
  · have hnone (b : Bool) : ¬s.spriteMeets (s.reg x) (s.reg y) n.toNat b := fun ⟨py, px, hc, _⟩ =>
      State.not_spriteCovers_of_zero hzero _ _ py px hc
    exact ⟨hmiss (hnone true), hmiss' (hnone false)⟩

end Sys2Proof.Machine
end

section
/-! The keys, the timers and the key wait (45_keys_timers.md R170 to R186): the instructions that read and write them, a
frame's events in a WAITING core, and the frames that such a core waits through. -/

namespace Sys2Proof.Machine

/-! ## The instructions -/

/-- Settles O36: a timer load may write its timer only. -/
theorem timerLoadsWriteOnlyTheirTimer : Obligations.TimerLoadsWriteOnlyTheirTimer := fun s x =>
  ⟨⟨_, rfl, rfl, exec_keepsAllBut_writes (i := .ldDtVx x) (s := s) rfl⟩,
    ⟨_, rfl, rfl, exec_keepsAllBut_writes (i := .ldStVx x) (s := s) rfl⟩, encodedBy_row rfl, encodedBy_row rfl⟩

/-- Settles O37: FX0A may write the gate only. -/
theorem keyWaitOnlyEntersWaiting : Obligations.KeyWaitOnlyEntersWaiting := fun s x =>
  ⟨⟨_, rfl, rfl, exec_keepsAllBut_writes (i := .ldVxK x) (s := s) rfl⟩, encodedBy_row rfl⟩

/-- Membership in the key set: no code is above 15, so no greater value is one (45_keys_timers.md R170). -/
theorem State.keyHeld_iff (s : State) (b : Byte) :
    s.keyHeld b = true ↔ ∃ k : Key, k.val = b.toNat ∧ s.keys[k] = true := by
  rw [State.keyHeld]
  split
  case isTrue hb =>
    refine ⟨fun h => ⟨⟨b.toNat, hb⟩, rfl, h⟩, ?_⟩
    rintro ⟨k, hk, h⟩
    obtain rfl : k = ⟨b.toNat, hb⟩ := Fin.ext hk
    exact h
  case isFalse hb =>
    refine ⟨fun h => absurd h Bool.false_ne_true, ?_⟩
    rintro ⟨k, hk, -⟩
    exact absurd (hk ▸ k.isLt) hb

/-- `skipsWhen_of_exec` for a Boolean that decides the condition. -/
theorem skipsWhen_of_exec_iff {i : Instr} {s : State} {b : Bool} {c : Prop}
    (h : exec i s = .next (s.skipIf b)) (hb : b = true ↔ c) : SkipsWhen i s c := by
  obtain rfl : (b = true) = c := propext hb
  exact skipsWhen_of_exec (by rwa [Bool.decide_eq_true])

/-- Settles O13: each of the two is `skipIf` of `keyHeld` or of its negation. -/
theorem keySkipsFollowTheKeySet : Obligations.KeySkipsFollowTheKeySet := fun s x _ =>
  have hheld := s.keyHeld_iff (s.reg x)
  ⟨skipsWhen_of_exec_iff rfl hheld,
    skipsWhen_of_exec_iff rfl (by rw [Bool.not_eq_true', ← Bool.not_eq_true, hheld]),
    encodedBy_row rfl, encodedBy_row rfl⟩

/-! ## A frame's events -/

theorem State.keepsAllBut_trans {s t u : State} {changed : List Part} (h : s.keepsAllBut t changed)
    (h' : t.keepsAllBut u changed) : s.keepsAllBut u changed :=
  fun p hp => State.sameOn_trans (h p hp) (h' p hp)

theorem State.applyEvent_up_of_running {s : State} (h : s.wait = none) (k : Key) :
    s.applyEvent (.up k) = { s with keys := s.keys.set k false } :=
  State.release_of_running (s := { s with keys := s.keys.set k false }) h k

/-- Only a key-up in a WAITING core writes more than `KEYS` (45_keys_timers.md R182, R184). -/
theorem State.applyEvent_keepsAllBut_keys {s : State} {e : KeyEvent} (h : s.wait = none ∨ ∃ k, e = .down k) :
    s.keepsAllBut (s.applyEvent e) [.keys] := by
  cases e with
  | down k => exact s.applyEvent_down_keepsAllBut k
  | up k =>
    have hrun : s.wait = none := h.resolve_right (by simp)
    rw [State.applyEvent_up_of_running hrun]
    simp [State.keepsAllBut_iff, State.reg, State.readByte]

/-- The events of a RUNNING core, and the key-downs of any, write `KEYS` only. -/
theorem State.applyEvents_keepsAllBut_keys {s : State} {events : List KeyEvent}
    (h : s.wait = none ∨ ∀ e ∈ events, ∃ k, e = .down k) : s.keepsAllBut (s.applyEvents events) [.keys] := by
  induction events generalizing s with
  | nil => exact fun p _ => s.sameOn_refl p
  | cons e rest ih =>
    have hfirst : s.keepsAllBut (s.applyEvent e) [.keys] :=
      State.applyEvent_keepsAllBut_keys (h.imp_right fun hdown => hdown e List.mem_cons_self)
    have hwait : (s.applyEvent e).wait = s.wait := hfirst .gate (by simp)
    have hrest : (s.applyEvent e).wait = none ∨ ∀ e' ∈ rest, ∃ k, e' = .down k :=
      h.imp hwait.trans fun hdown e' he' => hdown e' (List.mem_cons_of_mem e he')
    exact State.keepsAllBut_trans hfirst (ih hrest)

theorem State.applyEvents_append_cons (s : State) (before after : List KeyEvent) (e : KeyEvent) :
    s.applyEvents (before ++ e :: after) = ((s.applyEvents before).applyEvent e).applyEvents after :=
  List.foldl_append

/-- Settles O52: the key-downs before keep the wait, the key-up ends it, and the core that then runs keeps its registers
whatever comes after. -/
theorem firstKeyUpCompletesTheWait : Obligations.FirstKeyUpCompletesTheWait := by
  intro s r before after k hr hdown
  have hbefore := State.applyEvents_keepsAllBut_keys (s := s) (.inr hdown)
  have hwait : (s.applyEvents before).wait = some r := (hbefore .gate (by simp)).trans hr
  have hreg : ∀ q, (s.applyEvents before).reg q = s.reg q := hbefore .regs (by simp)
  obtain ⟨-, -, -, hend, hwritten, hother, -⟩ := keyEventsUpdateKeysAndRelease (s.applyEvents before) k
  have hafter := State.applyEvents_keepsAllBut_keys (events := after) (.inl hend)
  have hreg' := hafter .regs (by simp)
  rw [State.applyEvents_append_cons]
  refine ⟨⟨hwait, hreg⟩, (hafter .gate (by simp)).trans hend, ?_, fun q hq => ?_⟩
  · rw [hreg' r]
    exact hwritten r hwait
  · have hne : (s.applyEvents before).wait ≠ some q := by
      rw [hwait]
      exact fun hrq => hq (Option.some.inj hrq).symm
    rw [hreg' q, hother q hne, hreg q]

/-! ## The frames of a WAITING core -/

/-- The slots of a WAITING core are skipped (40_cycle.md R81). -/
theorem runSlots_of_waiting {s : State} (h : s.wait ≠ none) (n : Nat) : runSlots n s = .next s := by
  induction n with
  | zero => rfl
  | succ n ih => rw [runSlots, cycle_of_waiting h, thenDo_of_next, ih, ite_self]

theorem run_add {s t : State} {m : Nat} (h : Host.Core.run Sys2Proof.core m s = .next t) (n : Nat) :
    Host.Core.run Sys2Proof.core (m + n) s = Host.Core.run Sys2Proof.core n t := by
  induction m generalizing s with
  | zero =>
    obtain rfl : s = t := Host.Outcome.next.inj h
    rw [Nat.zero_add]
  | succ m ih =>
    obtain ⟨u, hu⟩ := step_answers_next s
    rw [run_succ_of_step hu] at h
    rw [Nat.succ_add, run_succ_of_step hu, ih h]

/-- What the frames of a WAITING core change while no key is released. -/
def waitingFrameParts : List Part := [.delayTimer, .soundTimer, .keys, .keyPort, .outputs]

/-- One frame without a key-up: the input phase writes `KEYS`, no slot does anything, and the timers tick once. -/
theorem run_waiting_frame {s : State} (hh : s.halt = none) (hp : s.phase = .input) (hw : s.wait ≠ none)
    (hdown : ∀ e ∈ s.frameEvents, ∃ k, e = .down k) :
    ∃ t, Host.Core.run Sys2Proof.core (s.cfg.ipf + 2) s = .next t ∧ t.dt = tick s.dt ∧ t.st = tick s.st ∧
      (∀ j, t.eventsAt j = s.eventsAt (j + 1)) ∧ s.keepsAllBut t waitingFrameParts := by
  have hinput : s.afterEvents.keepsAllBut s.inputPhase [.keys] := State.applyEvents_keepsAllBut_keys (.inr hdown)
  have hwait : s.inputPhase.wait = s.wait := hinput .gate (by simp)
  have hreg : ∀ r, s.inputPhase.reg r = s.afterEvents.reg r := hinput .regs (by simp)
  have hrun : frame s = .next s.inputPhase.timerPhase.outputPhase := by
    rw [frame_of_running hh, runSlots_of_waiting (hwait.trans_ne hw), thenDo_of_next,
      State.closeFrame_of_running (by simpa using hh)]
  refine ⟨_, (frameIsItsSteps s hp).trans hrun, by simp, by simp, fun j => ?_, ?_⟩
  · rw [← State.afterEvents_eventsAt]
    exact State.eventsAt_congr (by simp) (by simp) j
  · simp [State.keepsAllBut_iff, waitingFrameParts, hwait, hreg]

/-- Settles O56: frame by frame, each of them `run_waiting_frame`. -/
theorem waitingFramesOnlyCountTheTimersDown : Obligations.WaitingFramesOnlyCountTheTimersDown := by
  intro frames
  induction frames with
  | zero => exact fun s _ _ _ _ => ⟨s, by rw [Nat.zero_mul]; rfl, rfl, rfl, fun p _ => s.sameOn_refl p⟩
  | succ n ih =>
    intro s hh hp hw hdown
    obtain ⟨t, hrun, hdt, hst, hevents, hkeep⟩ := run_waiting_frame hh hp hw (hdown 0 n.succ_pos)
    have hcfg : t.cfg = s.cfg := hkeep .config (by decide)
    obtain ⟨u, hrun', hdt', hst', hkeep'⟩ := ih t ((hkeep .halt (by decide)).trans hh)
      ((hkeep .phase (by decide)).trans hp) ((hkeep .gate (by decide)).trans_ne hw)
      fun j hj => by rw [hevents]; exact hdown (j + 1) (Nat.succ_lt_succ hj)
    refine ⟨u, ?_, ?_, ?_, State.keepsAllBut_trans hkeep hkeep'⟩
    · rw [Nat.succ_mul, Nat.add_comm, run_add hrun, ← hcfg, hrun']
    · rw [hdt', hdt, tick_toNat, Nat.sub_sub, Nat.add_comm]
    · rw [hst', hst, tick_toNat, Nat.sub_sub, Nat.add_comm]

end Sys2Proof.Machine
end

section
/-! The fatal errors and the diagnostics of a step (60_exceptions.md R190 to R198). -/

namespace Sys2Proof.Machine

/-! ## A halted core -/

theorem frame_of_halted {s : State} (h : s.halt.isSome) : frame s = .next s := if_pos h

/-- Settles O9: the cycle, the frame and the step each test `HALT` first; the steps by induction (`run_of_halted`). -/
theorem haltedCoreNeverChanges : Obligations.HaltedCoreNeverChanges := by
  intro s k h
  have hhalted : s.halt.isSome := Option.isSome_iff_ne_none.mpr h
  exact ⟨cycle_of_halted h, frame_of_halted hhalted, run_of_halted hhalted k⟩

/-! ## The fatal errors -/

/-- The list of R190 without the fetch: the instruction `i` at `s` has the condition of the cause. -/
def FatalCondition (cause : FatalCause) (i : Instr) (s : State) : Prop :=
  (cause = .stackOverflow ∧ s.sp = 16 ∧ ∃ nnn, i = .call nnn) ∨
  (cause = .stackUnderflow ∧ s.sp = 0 ∧ ∃ mid, i = .ret mid) ∨
  (cause = .memoryBound ∧
    ((∃ x, i = .ldB x ∧ 0xFFF < s.effAddr 2) ∨
      (∃ x, i = .ldMemVx x ∧ 0xFFF < s.effAddr x.val) ∨
      (∃ x, i = .ldVxMem x ∧ 0xFFF < s.effAddr x.val) ∨
      (∃ x y n, i = .drw x y n ∧ n ≠ 0 ∧ 0xFFF < s.effAddr (n.toNat - 1))))

/-- An instruction that either raises `cause` on the condition `c` or keeps `HALT` has raised it when `HALT` changed. -/
theorem eq_takeFatal_of_halt_ne {cause : FatalCause} {i : Instr} {s t : State} {c : Prop} (h : exec i s = .next t)
    (ht : t.halt ≠ s.halt)
    (hi : (c ∧ exec i s = raiseFatal cause i s) ∨ ∃ u, exec i s = .next u ∧ u.halt = s.halt) :
    c ∧ t = s.takeFatal cause (s.pc - 2) (some (encode i)) := by
  rcases hi with ⟨hc, e⟩ | ⟨u, e, hu⟩ <;> cases h.symm.trans e
  · exact ⟨hc, rfl⟩
  · exact absurd hu ht

/-- An instruction that changes `HALT` raises a fatal error whose condition holds (60_exceptions.md R190, R195). -/
theorem exec_raises {i : Instr} {s t : State} (h : exec i s = .next t) (ht : t.halt ≠ s.halt) :
    ∃ cause, t = s.takeFatal cause (s.pc - 2) (some (encode i)) ∧ FatalCondition cause i s := by
  cases i with
  | call nnn =>
    obtain ⟨hfull, e⟩ := eq_takeFatal_of_halt_ne h ht ((execCall_cases nnn s).imp_right fun ⟨_, e⟩ => ⟨_, e, rfl⟩)
    exact ⟨_, e, .inl ⟨rfl, hfull, nnn, rfl⟩⟩
  | ret mid =>
    obtain ⟨hempty, e⟩ := eq_takeFatal_of_halt_ne h ht
      ((execRet_cases mid s).imp_right fun ⟨_, _, _, e⟩ => ⟨_, e, rfl⟩)
    exact ⟨_, e, .inr (.inl ⟨rfl, hempty, mid, rfl⟩)⟩
  | ldB x =>
    obtain ⟨hr, e⟩ := eq_takeFatal_of_halt_ne h ht ((execLdB_cases x s).imp_right fun ⟨_, e⟩ => ⟨_, e, rfl⟩)
    exact ⟨_, e, .inr (.inr ⟨rfl, .inl ⟨x, rfl, hr⟩⟩)⟩
  | ldMemVx x =>
    obtain ⟨hr, e⟩ := eq_takeFatal_of_halt_ne h ht ((execLdMemVx_cases x s).imp_right fun ⟨_, e⟩ => ⟨_, e, rfl⟩)
    exact ⟨_, e, .inr (.inr ⟨rfl, .inr (.inl ⟨x, rfl, hr⟩)⟩)⟩
  | ldVxMem x =>
    obtain ⟨hr, e⟩ := eq_takeFatal_of_halt_ne h ht
      ((execLdVxMem_cases x s).imp_right fun ⟨_, e⟩ => ⟨_, e, s.setRegs_halt 0 _⟩)
    exact ⟨_, e, .inr (.inr ⟨rfl, .inr (.inr (.inl ⟨x, rfl, hr⟩))⟩)⟩
  | drw x y n =>
    obtain ⟨hr, e⟩ := eq_takeFatal_of_halt_ne h ht
      ((execDrw_cases x y n s).imp and_assoc.mpr fun ⟨_, e⟩ => ⟨_, e, s.draw_halt x y _⟩)
    exact ⟨_, e, .inr (.inr ⟨rfl, .inr (.inr (.inr ⟨x, y, n, rfl, hr⟩))⟩)⟩
  | _ => exact absurd (exec_keepsAllBut_writes h .halt (by simp [writes])) ht

/-- A fatal error inside a slot, after the advance, undoes the advance and ends the frame (60_exceptions.md R195). -/
theorem State.advance_takeFatal_afterSlot (s : State) (cause : FatalCause) (op : Option Word) (left : Nat) :
    (s.advance.takeFatal cause (s.advance.pc - 2) op).afterSlot left =
      { s with halt := some ⟨cause, s.pc, op⟩, phase := .input } := by
  simp [State.advance, State.takeFatal, State.afterSlot]

/-- Settles O47: a running core halts in a slot only, at the bound check or by its instruction (`exec_raises`). -/
theorem fatalErrorsArePreciseAndListed : Obligations.FatalErrorsArePreciseAndListed := by
  intro s t f hs h ht
  rcases step_effect h with ⟨hh, -⟩ | ⟨-, -, -, rfl⟩ | ⟨-, -, -, rfl⟩ | ⟨l, -, -, -, -, rfl⟩ |
    ⟨l, -, -, -, -, hpc, hpol, rfl⟩ | ⟨l, -, -, -, hcheck, u, hn, hu, rfl⟩
  · exact absurd hs hh
  · simp [hs] at ht
  · simp [hs] at ht
  · simp [hs] at ht
  · obtain rfl := Option.some.inj ht
    rw [State.checkPc_of_fatal hpc hpol]
    exact ⟨rfl, rfl, .inl ⟨rfl, rfl, hpc, hpol⟩⟩
  · have hchange : u.halt ≠ s.checkPc.advance.halt := by
      rw [State.advance_halt, hcheck, ← u.afterSlot_halt l, ht]
      exact Option.some_ne_none f
    obtain ⟨cause, rfl, hcause⟩ := exec_raises hu hchange
    rw [State.advance_takeFatal_afterSlot, encode_decode] at ht ⊢
    obtain rfl := Option.some.inj ht
    exact ⟨rfl, rfl, .inr ⟨rfl, by simpa [FatalCondition, hn] using hcause⟩⟩

/-! ## The diagnostics -/

/-- A bound check that raised nothing emits PcReset exactly when `PC` was past memory (40_cycle.md R83). -/
theorem State.checkPc_diags {s : State} (h : s.checkPc.halt = none) :
    s.checkPc.diags = s.diags ++ if 0xFFE < s.pc.toNat then [.pcReset s.pc] else [] := by
  rcases s.checkPc_cases with ⟨hpc, e⟩ | ⟨hpc, -, e⟩ | ⟨-, -, e⟩
  · rw [e, if_neg (Nat.not_lt.mpr hpc), List.append_nil]
  · rw [e, if_pos hpc]
  · simp [e] at h

/-- The no-op names the address it was fetched from (40_cycle.md R87). -/
theorem emits_noHandler_advance (op : Word) (s : State) :
    emits (.noHandler op) s.advance = [.unknownOpcode s.pc op] := by
  simp [emits]

/-- Settles O49: a step that executes an instruction adds the bound check's event and then the instruction's own; any
other step adds none. -/
theorem diagnosticsAreTheTwoConditionsInOrder : Obligations.DiagnosticsAreTheTwoConditionsInOrder := by
  intro s t h
  rcases step_effect h with ⟨-, hn, rfl⟩ | ⟨-, -, hn, rfl⟩ | ⟨-, -, hn, rfl⟩ | ⟨l, -, -, -, hn, rfl⟩ |
    ⟨l, -, -, -, hn, -, -, rfl⟩ | ⟨l, -, -, -, hcheck, u, hn, hu, rfl⟩
  case inr.inr.inr.inr.inr =>
    rw [State.afterSlot_diags, exec_diags hu, State.advance_diags, State.checkPc_diags hcheck, hn]
    cases decode s.nextOpcode with
    | noHandler op => simp [emits_noHandler_advance]
    | _ => simp [emits]
  all_goals simp [hn]

end Sys2Proof.Machine
end
